-- ==== Sys2Proof/Word.lean ====
section
/-! DEFINITION. The bit vectors of the block: the buffer's byte, the 16-bit field, and the 3-bit
index of the lookup tables (00_scope.md R7, R9). `sint` of the spec is `BitVec.toInt`, `uint` is
`BitVec.toNat`, `sext_16` is `BitVec.signExtend 16`. -/

namespace Sys2Proof

/-- One element of the buffer (R7: "one byte (8 bits)"). -/
abbrev Byte := BitVec 8

/-- A 16-bit field: displacement, address or word immediate (R7, R9). -/
abbrev Word := BitVec 16

/-- The index of a register or of a base expression: 3 bits (R7). -/
abbrev Index := BitVec 3

end Sys2Proof
end

