-- ==== Sys2Proof/Syntax.lean ====
section
/-! DEFINITION. The decoded instruction set: one constructor of `Instr` for each row of
`spec/opcode_table.json`, with the fields of its encoding (30_encoding.md R60-R66). -/

namespace Sys2Proof

/-- The operand width that the flag `w` selects (R83). -/
inductive Width where
  | w8
  | w16
deriving DecidableEq, Repr

/-- The five shapes of a ModRM `mod`/`rm` pair with its displacement or address bytes (R65, R77). -/
inductive RmForm where
  /-- mod = 11: register-direct. -/
  | register (rm : Index)
  /-- mod = 00, rm other than 110: base expression, no displacement. -/
  | base (rm : Index)
  /-- mod = 01: base expression and an 8-bit displacement. -/
  | baseDisp8 (rm : Index) (d : Byte)
  /-- mod = 10: base expression and a 16-bit displacement. -/
  | baseDisp16 (rm : Index) (d : Word)
  /-- mod = 00, rm = 110: a 16-bit direct address, no base. -/
  | directAddress (a : Word)
deriving DecidableEq, Repr

/-- The instructions: the ten MOV rows of the opcode table and its fallback row (R70, R72).
`rm` is the ModRM-selected operand, `reg` the ModRM `reg` field. -/
inductive Instr where
  /-- 88: MOV r/m8, r8 (43_mov_rm_reg.md R130). -/
  | movRm8R8 (rm : RmForm) (reg : Index)
  /-- 89: MOV r/m16, r16 (R131). -/
  | movRm16R16 (rm : RmForm) (reg : Index)
  /-- 8A: MOV r8, r/m8 (R132). -/
  | movR8Rm8 (reg : Index) (rm : RmForm)
  /-- 8B: MOV r16, r/m16 (R133). -/
  | movR16Rm16 (reg : Index) (rm : RmForm)
  /-- A1: MOV ax, [addr] (40_mov_accumulator.md R100). -/
  | movAxAddr (a : Word)
  /-- A3: MOV [addr], ax (R101). -/
  | movAddrAx (a : Word)
  /-- B0 to B7: MOV r8, imm8 (41_mov_imm_reg.md R110). -/
  | movR8Imm8 (r : Index) (i : Byte)
  /-- B8 to BF: MOV r16, imm16 (R111). -/
  | movR16Imm16 (r : Index) (i : Word)
  /-- C6: MOV r/m8, byte imm8 (42_mov_imm_rm.md R120). `reg` is encoded and ignored (R74). -/
  | movRm8Imm8 (rm : RmForm) (reg : Index) (i : Byte)
  /-- C7: MOV r/m16, word imm16 (R121). `reg` is encoded and ignored (R74). -/
  | movRm16Imm16 (rm : RmForm) (reg : Index) (i : Word)
  /-- Any other byte at an instruction start: the fallback row (60_exceptions.md R141). -/
  | unrecognized (b : Byte)
deriving DecidableEq, Repr

/-- The class of an opcode byte (R71). -/
inductive OpClass where
  | accLoad
  | accStore
  | immReg8
  | immReg16
  | immRm8
  | immRm16
  | rmReg (d : Bool) (w : Bool)
  | unrecognized
deriving DecidableEq, Repr

/-- Why a byte list is not an instruction. Every first byte has a class, so a list is rejected only
for being too short (20_memory.md R44). -/
inductive DecodeError where
  /-- There is no byte at the instruction start. -/
  | noOpcode
  /-- `consumed` bytes were consumed, and the next field of `need` bytes is not all there. -/
  | truncated (consumed : Nat) (need : Nat)
deriving DecidableEq, Repr

end Sys2Proof
end

