-- ==== Sys2Proof/Machine/State.lean ====
section
/-! DEFINITION. The state of the block, `(buf, LEN, CURSOR, STATUS, OUT)` (10_state.md section 2), as
plain data, and the types it is made of. -/

namespace Sys2Proof.Machine

/-- `STATUS` (R24): the three run states. The code 3 is reserved and never reached, so it has no
constructor (log entry 15). -/
inductive Status where
  | run
  | done
  | trunc
deriving DecidableEq, Repr

/-- An operand of a record (30_encoding.md R83). -/
inductive Operand where
  /-- A register name, by index and width; no register value exists (R21, R84). -/
  | reg (i : Index) (w : Width)
  /-- A base expression plus a signed displacement, 0 when absent. -/
  | memBase (rm : Index) (disp : Word)
  /-- The direct address of mod = 00, rm = 110, read signed (R86; 90_conflicts.md C1). -/
  | memDirect (a : Word)
  /-- The absolute address of 0xA1/0xA3, read unsigned (R86; 90_conflicts.md C1). -/
  | memAbs (a : Word)
  /-- A signed immediate and its declared width (R87). -/
  | imm (v : Int) (w : Width)
deriving DecidableEq, Repr

/-- An element of `OUT` (R90). -/
inductive Record where
  /-- The directive line `bits 16`. -/
  | header
  /-- The empty line after it. -/
  | blank
  /-- Classes ACC, IMMREG and RMREG. -/
  | mov (dst src : Operand)
  /-- Class IMMRM, with its size keyword. -/
  | movSized (dst : Operand) (w : Width) (imm : Operand)
  /-- The diagnostic of an unrecognized byte (60_exceptions.md R141). -/
  | diagUnrecognized (b : Byte)
  /-- The diagnostic of a truncated instruction (R142). -/
  | diagTruncated
deriving DecidableEq, Repr

/-- The two events that a step can raise (60_exceptions.md R141-R143). -/
inductive Event where
  | unrecognized (b : Byte)
  | truncated
deriving DecidableEq, Repr

/-- The input buffer as index and byte pairs, indices strictly rising. An unlisted index holds no
byte: the host supplied none there (R23; log entry 3). -/
abbrev Memory := List Host.Cell

/-- The whole state of the block (10_state.md section 2). -/
structure State where
  /-- `buf` (R23). -/
  buf : Memory
  /-- `LEN` (R23, R26). -/
  len : Nat
  /-- `CURSOR` (R22). -/
  cursor : Nat
  /-- `STATUS` (R24). -/
  status : Status
  /-- `OUT` (R25). -/
  out : List Record
deriving DecidableEq, Repr

/-- The reasons a step stops with a fault. -/
inductive Fault where
  /-- Raised by `step` when STATUS is DONE or TRUNC: the run has ended and no step is enabled (R24,
  R162). Safe: the block takes no step there either (log entry 4). -/
  | runEnded
  /-- Raised by `step` when STATUS is RUN and CURSOR is not below LEN: `buf` has no byte there (R23).
  No state that meets the invariant reaches it (R46). Safe (log entry 5). -/
  | outsideBuffer
deriving DecidableEq, Repr

/-- The reasons a step is refused. -/
inductive Refusal where
  /-- An instruction without a meaning yet; no arm of this model is left so. Safe. -/
  | notModelled (mnemonic : String)
  /-- Raised by `step` when a byte it needs lies below LEN and the host did not supply it: "Buffer
  shorter than the LEN handed over: refuse" (93_implementation_defined.md). Safe (log entry 3). -/
  | bufferShort
deriving DecidableEq, Repr

/-- The block right after reset with nothing supplied by the host: LEN = 0, so STATUS is DONE, and
OUT holds the header (70_reset_and_hazards.md R160-R162). That LEN is 0 and `buf` is empty here is a
DESIGN CHOICE (log entry 1): the host supplies both before reset. `resetWith` is the reset of R160
for any buffer. -/
def State.reset : State :=
  { buf := [], len := 0, cursor := 0, status := .done, out := [.header, .blank] }

end Sys2Proof.Machine
end

