-- ==== Sys2Proof/Machine/Operands.lean ====
section
/-! DEFINITION. The constant lookup tables (30_encoding.md R80-R82) and every operand form (R67-R69,
R77, R83-R87). -/

namespace Sys2Proof.Machine

/-- An entry of a table of eight names. -/
def tableEntry (names : List String) (i : Index) : String := names.getD i.toNat ""

/-- `REG16` (R80). -/
def reg16Name : Index → String :=
  tableEntry ["ax", "cx", "dx", "bx", "sp", "bp", "si", "di"]

/-- `REG8` (R81). -/
def reg8Name : Index → String :=
  tableEntry ["al", "cl", "dl", "bl", "ah", "ch", "dh", "bh"]

/-- `EA` (R82): the base expression text. -/
def eaBase : Index → String :=
  tableEntry ["bx + si", "bx + di", "bp + si", "bp + di", "si", "di", "bp", "bx"]

/-- `register_name(i, w)` (R80, R81, R84). -/
def regName (i : Index) : Width → String
  | .w8 => reg8Name i
  | .w16 => reg16Name i

/-- The operand that `ResolveRM` returns (R77). An 8-bit displacement is sign-extended (R68). -/
def resolveRm (w : Width) : RmForm → Operand
  | .register rm => .reg rm w
  | .base rm => .memBase rm 0
  | .baseDisp8 rm d => .memBase rm (d.signExtend 16)
  | .baseDisp16 rm d => .memBase rm d
  | .directAddress a => .memDirect a

/-- The immediate operand of one byte (R67). -/
def imm8 (i : Byte) : Operand := .imm i.toInt .w8

/-- The immediate operand of two bytes (R67). -/
def imm16 (i : Word) : Operand := .imm i.toInt .w16

/-- The accumulator as an operand: ax, 16 bits (40_mov_accumulator.md R102). -/
def accumulator : Operand := .reg 0 .w16

end Sys2Proof.Machine
end

