-- ==== Sys2Proof/WellFormed.lean ====
section
/-! DEFINITION. The checks that an instruction passes exactly when it is the decoding of some bytes. -/

namespace Sys2Proof

/-- mod = 00 with rm = 110 is the direct address, so it is no base form (30_encoding.md R77). -/
def RmForm.wf : RmForm → Bool
  | .base rm => rm != 0b110
  | .register _ => true
  | .baseDisp8 _ _ => true
  | .baseDisp16 _ _ => true
  | .directAddress _ => true

/-- The 24 recognized opcode bytes, as R70 lists them. -/
def isMovOpcode (b : Byte) : Bool :=
  (0x88 ≤ b.toNat && b.toNat ≤ 0x8B) || b.toNat == 0xA1 || b.toNat == 0xA3
    || (0xB0 ≤ b.toNat && b.toNat ≤ 0xBF) || b.toNat == 0xC6 || b.toNat == 0xC7

/-- The fallback row stands for the other 232 bytes only (R72). -/
def Instr.wf : Instr → Bool
  | .movRm8R8 rm _ => rm.wf
  | .movRm16R16 rm _ => rm.wf
  | .movR8Rm8 _ rm => rm.wf
  | .movR16Rm16 _ rm => rm.wf
  | .movAxAddr _ => true
  | .movAddrAx _ => true
  | .movR8Imm8 _ _ => true
  | .movR16Imm16 _ _ => true
  | .movRm8Imm8 rm _ _ => rm.wf
  | .movRm16Imm16 rm _ _ => rm.wf
  | .unrecognized b => !isMovOpcode b

end Sys2Proof
end

