-- ==== Sys2Proof/Decode.lean ====
section
/-! DEFINITION. The decoder, total on every byte list, then the encoder.
Opcode dispatch and field extraction follow 30_encoding.md R60-R78; a list that ends inside an
instruction is rejected by name with the count of bytes consumed at the failing check
(20_memory.md R44, R45; 60_exceptions.md R143). -/

namespace Sys2Proof

/-- The longest instruction: 6 bytes (00_scope.md R7, 30_encoding.md R76). -/
def maxInstrLength : Nat := 6

/-! ## Fields -/

/-- The 16-bit value whose low byte comes first (20_memory.md R42, R43). For the address of
0xA1/0xA3 the byte order is the spec's decision D5 (log entry 9). -/
def littleEndian (lo hi : Byte) : Word := hi ++ lo

/-- ModRM bits 7:6 (R65). -/
def modField (m : Byte) : BitVec 2 := m.extractLsb' 6 2

/-- ModRM bits 5:3 (R65). -/
def regField (m : Byte) : Index := m.extractLsb' 3 3

/-- ModRM bits 2:0 (R65). -/
def rmField (m : Byte) : Index := m.extractLsb' 0 3

/-- The register field of an opcode 0xB0-0xBF: bits 2:0 (R62, R66). -/
def opcReg (opc : Byte) : Index := opc.extractLsb' 0 3

/-- `Classify` (R71). For 0x88-0x8B, d is bit 1 and w is bit 0; for 0xC6/0xC7, w is bit 0; for
0xB0-0xBF, w is bit 3 (R66). -/
def classify (opc : Byte) : OpClass :=
  if opc = 0xA1 then .accLoad
  else if opc = 0xA3 then .accStore
  else if opc.extractLsb' 4 4 = 0b1011#4 then
    if opc.getLsbD 3 then .immReg16 else .immReg8
  else if opc.extractLsb' 1 7 = 0b1100011#7 then
    if opc.getLsbD 0 then .immRm16 else .immRm8
  else if opc.extractLsb' 2 6 = 0b100010#6 then
    .rmReg (opc.getLsbD 1) (opc.getLsbD 0)
  else .unrecognized

/-! ## Consuming operations -/

/-- A value read from the front of a byte list, with the rest of the list. -/
abbrev Decoded (α : Type) := Except DecodeError (α × List Byte)

/-- `Take8` (R45), after `consumed` bytes. -/
def take8 (consumed : Nat) : List Byte → Decoded Byte
  | b :: rest => .ok (b, rest)
  | [] => .error (.truncated consumed 1)

/-- `Take16` (R45), after `consumed` bytes: a byte pair is checked as one unit (R44). -/
def take16 (consumed : Nat) : List Byte → Decoded Word
  | lo :: hi :: rest => .ok (littleEndian lo hi, rest)
  | [_] => .error (.truncated consumed 2)
  | [] => .error (.truncated consumed 2)

/-- The byte-consuming half of `ResolveRM` (R77), after `consumed` bytes. -/
def takeRm (mod : BitVec 2) (rm : Index) (consumed : Nat) (bs : List Byte) : Decoded RmForm :=
  if mod = 0b11 then .ok (.register rm, bs)
  else if mod = 0b01 then (take8 consumed bs).map fun p => (.baseDisp8 rm p.1, p.2)
  else if mod = 0b10 then (take16 consumed bs).map fun p => (.baseDisp16 rm p.1, p.2)
  else if rm = 0b110 then (take16 consumed bs).map fun p => (.directAddress p.1, p.2)
  else .ok (.base rm, bs)

/-- D(mod, rm) of R76 and R78: the count of displacement or address bytes. -/
def dispBytes : RmForm → Nat
  | .register _ => 0
  | .base _ => 0
  | .baseDisp8 _ _ => 1
  | .baseDisp16 _ _ => 2
  | .directAddress _ => 2

/-! ## The decoder -/

/-- Format ACC after the opcode (R61). -/
def decodeAcc (mk : Word → Instr) (bs : List Byte) : Decoded Instr :=
  (take16 1 bs).map fun p => (mk p.1, p.2)

/-- Format IMMREG, w = 0, after the opcode (R62). -/
def decodeImmReg8 (r : Index) (bs : List Byte) : Decoded Instr :=
  (take8 1 bs).map fun p => (.movR8Imm8 r p.1, p.2)

/-- Format IMMREG, w = 1, after the opcode (R62). -/
def decodeImmReg16 (r : Index) (bs : List Byte) : Decoded Instr :=
  (take16 1 bs).map fun p => (.movR16Imm16 r p.1, p.2)

/-- The ModRM byte and the bytes of its `mod`/`rm` pair: the `reg` field, the form and the rest. -/
def takeModRm (bs : List Byte) : Decoded (Index × RmForm) :=
  match take8 1 bs with
  | .error e => .error e
  | .ok (m, rest) =>
    (takeRm (modField m) (rmField m) 2 rest).map fun p => ((regField m, p.1), p.2)

/-- Format RMREG after the opcode (R64). -/
def decodeRmReg (d w : Bool) (bs : List Byte) : Decoded Instr :=
  (takeModRm bs).map fun p =>
    (match d, w with
      | false, false => .movRm8R8 p.1.2 p.1.1
      | false, true => .movRm16R16 p.1.2 p.1.1
      | true, false => .movR8Rm8 p.1.1 p.1.2
      | true, true => .movR16Rm16 p.1.1 p.1.2, p.2)

/-- Format IMMRM, w = 0, after the opcode (R63). -/
def decodeImmRm8 (bs : List Byte) : Decoded Instr :=
  match takeModRm bs with
  | .error e => .error e
  | .ok ((reg, rm), rest) =>
    (take8 (2 + dispBytes rm) rest).map fun p => (.movRm8Imm8 rm reg p.1, p.2)

/-- Format IMMRM, w = 1, after the opcode (R63). -/
def decodeImmRm16 (bs : List Byte) : Decoded Instr :=
  match takeModRm bs with
  | .error e => .error e
  | .ok ((reg, rm), rest) =>
    (take16 (2 + dispBytes rm) rest).map fun p => (.movRm16Imm16 rm reg p.1, p.2)

/-- The instruction at the front of a byte list, with the rest of the list (R71, R75). -/
def decode : List Byte → Decoded Instr
  | [] => .error .noOpcode
  | opc :: bs =>
    match classify opc with
    | .accLoad => decodeAcc .movAxAddr bs
    | .accStore => decodeAcc .movAddrAx bs
    | .immReg8 => decodeImmReg8 (opcReg opc) bs
    | .immReg16 => decodeImmReg16 (opcReg opc) bs
    | .immRm8 => decodeImmRm8 bs
    | .immRm16 => decodeImmRm16 bs
    | .rmReg d w => decodeRmReg d w bs
    | .unrecognized => .ok (.unrecognized opc, bs)

/-! ## Lengths -/

/-- The counts of the fields after the opcode byte, in their order (R60, R76). -/
def fieldBytes : Instr → List Nat
  | .movRm8R8 rm _ => [1, dispBytes rm]
  | .movRm16R16 rm _ => [1, dispBytes rm]
  | .movR8Rm8 _ rm => [1, dispBytes rm]
  | .movR16Rm16 _ rm => [1, dispBytes rm]
  | .movAxAddr _ => [2]
  | .movAddrAx _ => [2]
  | .movR8Imm8 _ _ => [1]
  | .movR16Imm16 _ _ => [2]
  | .movRm8Imm8 rm _ _ => [1, dispBytes rm, 1]
  | .movRm16Imm16 rm _ _ => [1, dispBytes rm, 2]
  | .unrecognized _ => []

/-- The total length of an instruction: the opcode byte and its fields (R76). -/
def instrLength (i : Instr) : Nat := 1 + (fieldBytes i).sum

/-! ## The encoder -/

/-- The two bytes of a 16-bit field, the low byte first (R43). -/
def wordBytes (v : Word) : List Byte := [v.extractLsb' 0 8, v.extractLsb' 8 8]

/-- A ModRM byte from its fields (R65). -/
def modRmByte (mod : BitVec 2) (reg rm : Index) : Byte := mod ++ reg ++ rm

/-- The ModRM byte of a form, then its displacement or address bytes (R65, R68, R69). -/
def encodeRm (reg : Index) : RmForm → List Byte
  | .register rm => [modRmByte 0b11 reg rm]
  | .base rm => [modRmByte 0b00 reg rm]
  | .baseDisp8 rm d => [modRmByte 0b01 reg rm, d]
  | .baseDisp16 rm d => modRmByte 0b10 reg rm :: wordBytes d
  | .directAddress a => modRmByte 0b00 reg 0b110 :: wordBytes a

/-- The bytes of an instruction (R61-R64). -/
def encode : Instr → List Byte
  | .movRm8R8 rm reg => 0x88 :: encodeRm reg rm
  | .movRm16R16 rm reg => 0x89 :: encodeRm reg rm
  | .movR8Rm8 reg rm => 0x8A :: encodeRm reg rm
  | .movR16Rm16 reg rm => 0x8B :: encodeRm reg rm
  | .movAxAddr a => 0xA1 :: wordBytes a
  | .movAddrAx a => 0xA3 :: wordBytes a
  | .movR8Imm8 r i => [(0b10110#5 ++ r : BitVec 8), i]
  | .movR16Imm16 r i => (0b10111#5 ++ r : BitVec 8) :: wordBytes i
  | .movRm8Imm8 rm reg i => 0xC6 :: (encodeRm reg rm ++ [i])
  | .movRm16Imm16 rm reg i => 0xC7 :: (encodeRm reg rm ++ wordBytes i)
  | .unrecognized b => [b]

/-! ## The opcode table's numbering of bits -/

/-- The bytes, in buffer order, of an instruction whose bits are `w`: byte k holds the bits
8k+7..8k, and every bit above `nbits` is 0. -/
def tableBytes (nbits w : Nat) : List Byte :=
  (List.range maxInstrLength).map fun k => BitVec.ofNat 8 ((w % 2 ^ nbits) >>> (8 * k))

/-- The instruction the decoder reads from the bytes of `tableBytes`. -/
def decodeTableWord (nbits w : Nat) : Option Instr :=
  match decode (tableBytes nbits w) with
  | .ok (i, _) => some i
  | .error _ => none

end Sys2Proof
end

