-- ==== Sys2Proof/Machine/Flags.lean ====
section
/-! DEFINITION. The block has no flags and no condition codes: decoding writes none and no rule reads
one (10_state.md R27). What a step computes beside its record is `STATUS` (R24, 30_encoding.md R75),
whose computation and codes stand here. -/

namespace Sys2Proof.Machine

/-- The STATUS of a step that ends at `cur` without a truncation (R75), and of reset at 0 (R160). -/
def statusAt (cur len : Nat) : Status := if cur = len then .done else .run

/-- The two-bit code of `STATUS` that the host reads (R24, R26; the codes are the spec's decision
D12, log entry 15). -/
def statusCode : Status → BitVec 2
  | .run => 0
  | .done => 1
  | .trunc => 2

end Sys2Proof.Machine
end

