-- ==== Sys2Proof/Machine/Ops.lean ====
section
/-! DEFINITION. The operations that the meanings share: the buffer, the output stream, taking an
event, the check of the bytes an instruction needs, and reset. -/

namespace Sys2Proof.Machine

/-! ## The buffer -/

/-- The form every buffer has: indices strictly rising, so equal buffers are equal lists. An unlisted
index holds no byte, so no entry can repeat what an unlisted index reads as. -/
abbrev Memory.wf (m : Memory) : Prop := m.Pairwise fun c d => c.1 < d.1

/-- The byte at an index, if the host supplied one. -/
def Memory.read : Memory → Nat → Option Byte
  | [], _ => none
  | (k, v) :: rest, a => if k = a then some v else Memory.read rest a

/-- The buffer with one byte set, in canonical form. Only the host's load uses it: the Decoder
never stores to `buf` (20_memory.md R53). -/
def Memory.write : Memory → Nat → Byte → Memory
  | [], a, b => [(a, b)]
  | (k, v) :: rest, a, b =>
    if a < k then (a, b) :: (k, v) :: rest
    else if a = k then (a, b) :: rest
    else (k, v) :: Memory.write rest a b

/-- The buffer with consecutive bytes set from an index on. -/
def Memory.writeBytes (m : Memory) (a : Nat) : List Byte → Memory
  | [] => m
  | b :: bs => Memory.writeBytes (Memory.write m a b) (a + 1) bs

/-- `MemRead(addr, 1)` (R42): defined for the indices below LEN (10_state.md R23). -/
def memRead8 (s : State) (a : Nat) : Option Byte :=
  if a < s.len then s.buf.read a else none

/-- `MemRead(addr, 2)` (R42): little-endian, at any index (R43, R47). -/
def memRead16 (s : State) (a : Nat) : Option Word :=
  match memRead8 s a, memRead8 s (a + 1) with
  | some lo, some hi => some (littleEndian lo hi)
  | _, _ => none

/-! ## The output stream -/

/-- `Emit` (10_state.md R25): append one record. -/
def emit (r : Record) (s : State) : State := { s with out := s.out ++ [r] }

/-! ## Ending a step -/

/-- The end of a step that raised nothing: CURSOR and STATUS (30_encoding.md R75). -/
def advance (cur : Nat) (s : State) : State :=
  { s with cursor := cur, status := statusAt cur s.len }

/-- The cause code of an event (60_exceptions.md R143; the codes are the spec's decision D12, log
entry 15). -/
def eventCode : Event → Nat
  | .unrecognized _ => 1
  | .truncated => 2

/-- The value an event records (R143). -/
def eventValue : Event → Option Byte
  | .unrecognized b => some b
  | .truncated => none

/-- The diagnostic record of an event (R141, R142). -/
def eventRecord : Event → Record
  | .unrecognized b => .diagUnrecognized b
  | .truncated => .diagTruncated

/-- Taking an event with the working cursor at `cur` (60_exceptions.md R141, R142, R145): its
diagnostic is appended, CURSOR is left at the working cursor (`start + 1` for an unrecognized byte,
the failing check for a truncation), and STATUS goes on or becomes TRUNC. Nothing is saved, and
there is no vector and no return (R145, R146): after `unrecognized` the next step decodes the next
byte, after `truncated` no step is enabled. -/
def takeEvent (e : Event) (cur : Nat) (s : State) : State :=
  match e with
  | .unrecognized _ => advance cur (emit (eventRecord e) s)
  | .truncated => { emit (eventRecord e) s with cursor := cur, status := .trunc }

/-! ## Running an instruction -/

/-- The end-of-buffer checks of an instruction's fields, in order, from the working cursor (20_memory.md
R44, R45; 60_exceptions.md R144): the working cursor after them all, or at the first that fails. -/
def consume : List Nat → Nat → Nat → Except Nat Nat
  | [], _, cur => .ok cur
  | k :: ks, len, cur => if len - cur < k then .error cur else consume ks len (cur + k)

/-- The body of a recognized instruction (30_encoding.md R75): its fields are consumed after the
opcode byte, its one record is appended, and CURSOR and STATUS are written; where a field is not
all there, the truncation event is taken at that check and no record of the instruction appears. -/
def runBody (fields : List Nat) (r : Record) (s : State) : Host.Outcome State Fault Refusal :=
  match consume fields s.len (s.cursor + 1) with
  | .ok cur => .next (advance cur (emit r s))
  | .error cur => .next (takeEvent .truncated cur s)

/-! ## Reset -/

/-- `Reset(buf, LEN)` (70_reset_and_hazards.md R160). -/
def resetWith (buf : Memory) (len : Nat) : State :=
  { buf := buf, len := len, cursor := 0, status := statusAt 0 len, out := [.header, .blank] }

/-- Reset with the bytes of a whole input, as the host hands them over (R163). -/
def resetBytes (bs : List Byte) : State := resetWith (Memory.writeBytes [] 0 bs) bs.length

end Sys2Proof.Machine
end

