-- ==== Sys2Proof/Machine/Accumulator.lean ====
section
/-! DEFINITION. The accumulator-memory MOV (40_mov_accumulator.md). -/

namespace Sys2Proof.Machine

/-- MOV ax, [addr] (0xA1, R100). -/
def execMovAxAddr (a : Word) (s : State) : Host.Outcome State Fault Refusal :=
  runBody [2] (.mov accumulator (.memAbs a)) s

/-- MOV [addr], ax (0xA3, R101). -/
def execMovAddrAx (a : Word) (s : State) : Host.Outcome State Fault Refusal :=
  runBody [2] (.mov (.memAbs a) accumulator) s

end Sys2Proof.Machine
end

