-- ==== Sys2Proof/Machine/ImmReg.lean ====
section
/-! DEFINITION. The immediate-to-register MOV (41_mov_imm_reg.md). -/

namespace Sys2Proof.Machine

/-- MOV r8, imm8 (0xB0-0xB7, R110). -/
def execMovR8Imm8 (r : Index) (i : Byte) (s : State) : Host.Outcome State Fault Refusal :=
  runBody [1] (.mov (.reg r .w8) (imm8 i)) s

/-- MOV r16, imm16 (0xB8-0xBF, R111). -/
def execMovR16Imm16 (r : Index) (i : Word) (s : State) : Host.Outcome State Fault Refusal :=
  runBody [2] (.mov (.reg r .w16) (imm16 i)) s

end Sys2Proof.Machine
end

