-- ==== Sys2Proof/Machine/ImmRm.lean ====
section
/-! DEFINITION. The immediate-to-register/memory MOV (42_mov_imm_rm.md). The ModRM `reg` field is
ignored (30_encoding.md R74; log entry 10), and a register destination keeps the sized record (R122;
log entry 11). -/

namespace Sys2Proof.Machine

/-- MOV r/m8, byte imm8 (0xC6, R120). -/
def execMovRm8Imm8 (rm : RmForm) (_reg : Index) (i : Byte) (s : State) :
    Host.Outcome State Fault Refusal :=
  runBody [1, dispBytes rm, 1] (.movSized (resolveRm .w8 rm) .w8 (imm8 i)) s

/-- MOV r/m16, word imm16 (0xC7, R121). -/
def execMovRm16Imm16 (rm : RmForm) (_reg : Index) (i : Word) (s : State) :
    Host.Outcome State Fault Refusal :=
  runBody [1, dispBytes rm, 2] (.movSized (resolveRm .w16 rm) .w16 (imm16 i)) s

end Sys2Proof.Machine
end

