-- ==== Sys2Proof/Machine/RmReg.lean ====
section
/-! DEFINITION. The register/memory-to/from-register MOV (43_mov_rm_reg.md). -/

namespace Sys2Proof.Machine

/-- The body `RMREG(d, w)` that the four opcodes share (43_mov_rm_reg.md): with d the register is
the destination, without it the source. -/
def rmReg (d : Bool) (w : Width) (reg : Index) (rm : RmForm) (s : State) :
    Host.Outcome State Fault Refusal :=
  runBody [1, dispBytes rm]
    (if d then .mov (.reg reg w) (resolveRm w rm) else .mov (resolveRm w rm) (.reg reg w)) s

/-- MOV r/m8, r8 (0x88, R130). -/
def execMovRm8R8 (rm : RmForm) (reg : Index) (s : State) : Host.Outcome State Fault Refusal :=
  rmReg false .w8 reg rm s

/-- MOV r/m16, r16 (0x89, R131). -/
def execMovRm16R16 (rm : RmForm) (reg : Index) (s : State) : Host.Outcome State Fault Refusal :=
  rmReg false .w16 reg rm s

/-- MOV r8, r/m8 (0x8A, R132). -/
def execMovR8Rm8 (reg : Index) (rm : RmForm) (s : State) : Host.Outcome State Fault Refusal :=
  rmReg true .w8 reg rm s

/-- MOV r16, r/m16 (0x8B, R133). -/
def execMovR16Rm16 (reg : Index) (rm : RmForm) (s : State) : Host.Outcome State Fault Refusal :=
  rmReg true .w16 reg rm s

end Sys2Proof.Machine
end

