-- ==== Sys2Proof/Machine/Unrecognized.lean ====
section
/-! DEFINITION. The fallback row of the opcode table (60_exceptions.md R141). -/

namespace Sys2Proof.Machine

/-- An unrecognized opcode byte: the event is taken after the one byte, and decoding goes on (R141). -/
def execUnrecognized (b : Byte) (s : State) : Host.Outcome State Fault Refusal :=
  .next (takeEvent (.unrecognized b) (s.cursor + 1) s)

end Sys2Proof.Machine
end

