-- ==== Sys2Proof/Machine/Dispatch.lean ====
section
/-! DEFINITION. One arm for each instruction. -/

namespace Sys2Proof.Machine

def exec (i : Instr) (s : State) : Host.Outcome State Fault Refusal :=
  match i with
  | .movRm8R8 rm reg => Sys2Proof.Machine.execMovRm8R8 rm reg s
  | .movRm16R16 rm reg => Sys2Proof.Machine.execMovRm16R16 rm reg s
  | .movR8Rm8 reg rm => Sys2Proof.Machine.execMovR8Rm8 reg rm s
  | .movR16Rm16 reg rm => Sys2Proof.Machine.execMovR16Rm16 reg rm s
  | .movAxAddr a => Sys2Proof.Machine.execMovAxAddr a s
  | .movAddrAx a => Sys2Proof.Machine.execMovAddrAx a s
  | .movR8Imm8 r imm => Sys2Proof.Machine.execMovR8Imm8 r imm s
  | .movR16Imm16 r imm => Sys2Proof.Machine.execMovR16Imm16 r imm s
  | .movRm8Imm8 rm reg imm => Sys2Proof.Machine.execMovRm8Imm8 rm reg imm s
  | .movRm16Imm16 rm reg imm => Sys2Proof.Machine.execMovRm16Imm16 rm reg imm s
  | .unrecognized b => Sys2Proof.Machine.execUnrecognized b s

end Sys2Proof.Machine
end

