-- ==== Sys2Proof/Machine/Fetch.lean ====
section
/-! DEFINITION. Fetching an instruction's bytes, and what a step does where they are not all there. -/

namespace Sys2Proof.Machine

/-- At most `n` bytes of the buffer from index `a` on, up to the first index that holds none. -/
def readRun (s : State) : Nat → Nat → List Byte
  | 0, _ => []
  | n + 1, a =>
    match memRead8 s a with
    | some b => b :: readRun s n (a + 1)
    | none => []

/-- The bytes at CURSOR, as many as the longest instruction has. -/
def fetchBytes (s : State) : List Byte := readRun s maxInstrLength s.cursor

/-- A step whose bytes do not decode. The field that is missing decides: past LEN, `Need` fails and
the truncation event is taken (20_memory.md R44; 60_exceptions.md R142); below LEN, the host did not
supply a byte it owes (93_implementation_defined.md; log entry 3). Without an opcode byte at all the
state breaks R46 or the host's duty (log entries 3 and 5). -/
def rejectStep (e : DecodeError) (s : State) : Host.Outcome State Fault Refusal :=
  match e with
  | .noOpcode => if s.cursor < s.len then .refused .bufferShort else .fault .outsideBuffer
  | .truncated consumed need =>
    if s.len - (s.cursor + consumed) < need then
      .next (takeEvent .truncated (s.cursor + consumed) s)
    else .refused .bufferShort

/-- The bytes the host puts at CURSOR, with LEN reaching past them and STATUS at RUN: the load of R163
and the reset of R160 as far as the next step needs them. -/
def placeAtCursor (s : State) (bs : List Byte) : State :=
  { s with
    buf := Memory.writeBytes s.buf s.cursor bs
    len := max s.len (s.cursor + bs.length)
    status := .run }

end Sys2Proof.Machine
end

