-- ==== Sys2Proof/Machine/Step.lean ====
section
/-! DEFINITION. One step of the Decoder (30_encoding.md R75), and the host's placing of an
instruction where the next step fetches it. -/

namespace Sys2Proof.Machine

/-- `Step` (R75): enabled only in RUN; the bytes at CURSOR are decoded and the instruction runs, or
the truncation event is taken (R75's `DecodeAt` with the state update that applies it). -/
def step (s : State) : Host.Outcome State Fault Refusal :=
  match s.status with
  | .run =>
    match decode (fetchBytes s) with
    | .ok (i, _) => exec i s
    | .error e => rejectStep e s
  | .done => .fault .runEnded
  | .trunc => .fault .runEnded

/-- The state with the bytes of a table word placed at CURSOR, so that the next step runs it. It stands
for the host's load of a buffer (log entry 2). -/
def State.withFetchWord (s : State) (nbits w : Nat) : State := placeAtCursor s (tableBytes nbits w)

end Sys2Proof.Machine
end

