-- ==== Sys2Proof/Machine/Render.lean ====
section
/-! DEFINITION. The text of the output, a function of the records (30_encoding.md R91-R98). Radix,
spacing, indentation and the wording of the diagnostics are the spec's decisions D4 and D9 to D11 (log
entry 13). -/

namespace Sys2Proof.Machine

/-- The sixteen digits of hexadecimal, upper case (R94; D9). -/
def digitChars : List Char :=
  ['0', '1', '2', '3', '4', '5', '6', '7', '8', '9', 'A', 'B', 'C', 'D', 'E', 'F']

/-- One digit. -/
def digitChar (n : Nat) : Char := digitChars.getD n '0'

/-- The decimal digits of a number, at most `fuel` of them, no leading zero. -/
def decDigits : Nat → Nat → List Char
  | 0, _ => []
  | fuel + 1, n =>
    if n < 10 then [digitChar n] else decDigits fuel (n / 10) ++ [digitChar (n % 10)]

/-- `dec` of a natural number (R91). -/
def decNat (n : Nat) : String := String.ofList (decDigits (n + 1) n)

/-- `dec` (R91): a minus sign before the digits of a negative number, nothing before another. -/
def dec (n : Int) : String := if n < 0 then "-" ++ decNat n.natAbs else decNat n.natAbs

/-- `HH` (R94): the two upper-case hexadecimal digits of a byte. -/
def hexByte (b : Byte) : String :=
  String.ofList [digitChar (b.toNat / 16), digitChar (b.toNat % 16)]

/-- `RenderEA` (R93). -/
def renderEa (base : String) (n : Int) : String :=
  if n = 0 then "[" ++ base ++ "]"
  else if 0 < n then "[" ++ base ++ " + " ++ dec n ++ "]"
  else "[" ++ base ++ " - " ++ dec (-n) ++ "]"

/-- `RenderOperand` (R92). -/
def renderOperand : Operand → String
  | .reg i w => regName i w
  | .memBase rm d => renderEa (eaBase rm) d.toInt
  | .memDirect a => "[" ++ dec a.toInt ++ "]"
  | .memAbs a => "[" ++ dec a.toNat ++ "]"
  | .imm v _ => dec v

/-- The size keyword of a sized record (R94). -/
def sizeKeyword : Width → String
  | .w8 => "byte"
  | .w16 => "word"

/-- A line with its one tab of indentation (R95). -/
def indent (body : String) : String := "\t" ++ body

/-- `RenderRecord` (R94, R95): the line of a record, one tab before an instruction or a diagnostic. -/
def renderRecord : Record → String
  | .header => "bits 16"
  | .blank => ""
  | .mov dst src => indent ("mov " ++ renderOperand dst ++ ", " ++ renderOperand src)
  | .movSized dst w imm =>
    indent ("mov " ++ renderOperand dst ++ ", " ++ sizeKeyword w ++ " " ++ renderOperand imm)
  | .diagUnrecognized b => indent ("; unrecognized opcode 0x" ++ hexByte b)
  | .diagTruncated => indent "; truncated instruction"

/-- The text of a record sequence: each line ends with LF (R97). -/
def renderText : List Record → String
  | [] => ""
  | r :: rs => renderRecord r ++ "\n" ++ renderText rs

/-- What the host sees of a state: the text of `OUT` (R32, R97). -/
def outputText (s : State) : String := renderText s.out

end Sys2Proof.Machine
end

