-- ==== Sys2Proof/Config.lean ====
section
/-! DEFINITION. What an implementation fixes and the spec leaves open: one parameter.
The spec leaves no value of a result open, so there is no free value here. -/

namespace Sys2Proof

/-- `MAX_LEN`, the largest buffer the host can supply (00_scope.md R7; 92_eei_decisions.md D2: OPEN).
It has no effect on any rule except which buffers exist. It has no body: no proof can rest on a
value of it. DESIGN CHOICE, safe (log entry 6). -/
opaque Config.maxLen : Nat

end Sys2Proof
end

