-- ==== Sys2Proof/Machine/Contract.lean ====
section
/-! DEFINITION. The block's contract as one pure function of the bytes, `decode_all` (10_state.md R31,
R32), written without cursor, status or buffer. Claims compare the machine with it. -/

namespace Sys2Proof.Machine

/-- The record of an instruction, by opcode-table row (R100-R133, R141). -/
def recordOf : Instr → Record
  | .movRm8R8 rm reg => .mov (resolveRm .w8 rm) (.reg reg .w8)
  | .movRm16R16 rm reg => .mov (resolveRm .w16 rm) (.reg reg .w16)
  | .movR8Rm8 reg rm => .mov (.reg reg .w8) (resolveRm .w8 rm)
  | .movR16Rm16 reg rm => .mov (.reg reg .w16) (resolveRm .w16 rm)
  | .movAxAddr a => .mov (.reg 0 .w16) (.memAbs a)
  | .movAddrAx a => .mov (.memAbs a) (.reg 0 .w16)
  | .movR8Imm8 r i => .mov (.reg r .w8) (.imm i.toInt .w8)
  | .movR16Imm16 r i => .mov (.reg r .w16) (.imm i.toInt .w16)
  | .movRm8Imm8 rm _ i => .movSized (resolveRm .w8 rm) .w8 (.imm i.toInt .w8)
  | .movRm16Imm16 rm _ i => .movSized (resolveRm .w16 rm) .w16 (.imm i.toInt .w16)
  | .unrecognized b => .diagUnrecognized b

/-- The records of a byte list, one for each instruction, at most `fuel` of them (R75, R165). -/
def decodeLines : Nat → List Byte → List Record
  | 0, _ => []
  | fuel + 1, bs =>
    match decode bs with
    | .ok (i, rest) => recordOf i :: decodeLines fuel rest
    | .error .noOpcode => []
    | .error (.truncated _ _) => [.diagTruncated]

/-- `decode_all` (R31): the header, then one record for each instruction or diagnostic (R96). -/
def decodeAll (bs : List Byte) : List Record := .header :: .blank :: decodeLines bs.length bs

end Sys2Proof.Machine
end

