-- ==== Sys2Proof/Safety.lean ====
section
/-! DEFINITION. What counts as a good state and a safe step, and the terms that claims use. -/

namespace Sys2Proof.Machine

/-! ## The host's duty -/

/-- LEN is a length the host can supply (10_state.md R26: 0..MAX_LEN). -/
def LenLegal (s : State) : Prop := s.len ≤ Config.maxLen

/-- The host handed over exactly LEN bytes (10_state.md R23; 93_implementation_defined.md). -/
structure BufferWhole (s : State) : Prop where
  canonical : s.buf.wf
  below : ∀ c ∈ s.buf, c.1 < s.len
  whole : ∀ a < s.len, (s.buf.read a).isSome

/-! ## Legal records -/

/-- The signed range of a width (30_encoding.md R67, R83). -/
def immInRange (v : Int) : Width → Bool
  | .w8 => -128 ≤ v && v ≤ 127
  | .w16 => -32768 ≤ v && v ≤ 32767

/-- An operand `ResolveRM` can return at width `w` (R77). -/
def isRm (w : Width) : Operand → Bool
  | .reg _ w' => w' == w
  | .memBase _ _ => true
  | .memDirect _ => true
  | .memAbs _ => false
  | .imm _ _ => false

/-- An immediate of width `w` (R67). -/
def isImm (w : Width) : Operand → Bool
  | .imm v w' => w' == w && immInRange v w
  | .reg _ _ => false
  | .memBase _ _ => false
  | .memDirect _ => false
  | .memAbs _ => false

/-- A register operand. -/
def isReg : Operand → Bool
  | .reg _ _ => true
  | .memBase _ _ => false
  | .memDirect _ => false
  | .memAbs _ => false
  | .imm _ _ => false

/-- An absolute-address operand. -/
def isAbs : Operand → Bool
  | .memAbs _ => true
  | .reg _ _ => false
  | .memBase _ _ => false
  | .memDirect _ => false
  | .imm _ _ => false

/-- The operand pairs of a `Mov` record: a register with a register, memory or immediate operand of
its width (classes RMREG and IMMREG), or ax with an absolute address (class ACC). -/
def movLegal : Operand → Operand → Bool
  | .reg i w, src => isRm w src || isImm w src || (i == 0 && w == .w16 && isAbs src)
  | .memBase _ _, src => isReg src
  | .memDirect _, src => isReg src
  | .memAbs _, src => src == .reg 0 .w16
  | .imm _ _, _ => false

/-- A record that a step can append (R90, R72). -/
def recordLegal : Record → Bool
  | .header => false
  | .blank => false
  | .mov dst src => movLegal dst src
  | .movSized dst w imm => isRm w dst && isImm w imm
  | .diagUnrecognized b => !isMovOpcode b
  | .diagTruncated => true

/-! ## The invariant -/

/-- What every state of a run satisfies: the host's duty, the place of CURSOR (R22, R24, R46), and the
shape of OUT (R25, R96, R142): the header, then legal records, among them a truncation diagnostic
exactly when STATUS is TRUNC, and then as the last one. -/
structure Inv (s : State) : Prop where
  buffer : BufferWhole s
  cursor_le : s.cursor ≤ s.len
  run_below : s.status = .run → s.cursor < s.len
  done_at_end : s.status = .done → s.cursor = s.len
  header : s.out.take 2 = [.header, .blank]
  legal : ∀ r ∈ s.out.drop 2, recordLegal r = true
  one_truncation : s.out.count .diagTruncated = if s.status = .trunc then 1 else 0
  truncation_last : s.status = .trunc → s.out.getLast? = some .diagTruncated

/-- A step outcome that a run may have: a next state, or the end of the run. -/
def Allowed : Host.Outcome State Fault Refusal → Prop
  | .next _ => True
  | .fault f => f = .runEnded
  | .refused _ => False

/-! ## Runs -/

/-- `k` steps from a state, ended by the first fault or refusal (70_reset_and_hazards.md R162). It is
the host's `Core.run` of `Sys2Proof.core`, stated over `step`. -/
def runSteps : Nat → State → Host.Outcome State Fault Refusal
  | 0, s => .next s
  | k + 1, s =>
    match step s with
    | .next t => runSteps k t
    | .fault f => .fault f
    | .refused r => .refused r

/-! ## Terms of the per-instruction claims -/

/-- Wherever `n` bytes remain, the instruction completes: its record is appended, CURSOR moves by `n`,
STATUS is DONE at LEN and RUN before it, and nothing else changes. -/
def CompletesWith (i : Instr) (n : Nat) (r : Record) : Prop :=
  ∀ s : State, s.cursor + n ≤ s.len →
    exec i s = .next { s with
      cursor := s.cursor + n
      status := if s.cursor + n = s.len then .done else .run
      out := s.out ++ [r] }

/-- Wherever at least `k` bytes remain and fewer than `m`, the instruction takes the truncation event
with the working cursor `k` bytes past its start. -/
def TruncatesAt (i : Instr) (k m : Nat) : Prop :=
  ∀ s : State, s.cursor + k ≤ s.len → s.len < s.cursor + m →
    exec i s = .next (takeEvent .truncated (s.cursor + k) s)

/-- The displacement or address bytes of a ModRM byte: D(mod, rm) of the table in R78. -/
def modRmDisp (m : Byte) : Nat :=
  if modField m = 0b01 then 1
  else if modField m = 0b10 then 2
  else if modField m = 0b00 ∧ rmField m = 0b110 then 2
  else 0

/-- The length that the opcode byte and the ModRM byte give an instruction (R73, R76). -/
def declaredLength (opc m : Byte) : Nat :=
  match classify opc with
  | .accLoad => 3
  | .accStore => 3
  | .immReg8 => 2
  | .immReg16 => 3
  | .immRm8 => 3 + modRmDisp m
  | .immRm16 => 4 + modRmDisp m
  | .rmReg _ _ => 2 + modRmDisp m
  | .unrecognized => 1

/-- The value of a decimal numeral (R91). -/
def numeralValue (cs : List Char) : Nat := cs.foldl (fun v c => 10 * v + (c.toNat - 48)) 0

end Sys2Proof.Machine
end

