-- ==== Sys2Proof/Certificates/Slice0/Obligations.lean ====
section
/-! DEFINITION. The statements for the provers. Records are normative, text is a function of them (D1).
Statements that rest on one of the spec's own decisions say which. -/

open Sys2Proof Sys2Proof.Machine

/-! ## Encoding -/

/-- Decoding the bytes of a well-formed instruction, whatever follows, gives it back whole. -/
def Obligations.DecodeOfEncode : Prop :=
  ∀ (i : Instr) (rest : List Byte), i.wf = true → decode (encode i ++ rest) = .ok (i, rest)

/-- Whatever the decoder reads is well-formed, and its encoding is exactly the bytes consumed: no bit
is dropped, and every byte sequence has one meaning. -/
def Obligations.EncodeOfDecode : Prop :=
  ∀ (bs rest : List Byte) (i : Instr), decode bs = .ok (i, rest) →
    i.wf = true ∧ encode i ++ rest = bs

/-- R60: opcode, optional ModRM, optional displacement or address, optional immediate, in that order, and
the bytes consumed are exactly these fields. Each field is the one the instruction holds: the ModRM
byte and the displacement are those of its form, the address and the immediate are its own, low byte
first (for 0xA1 and 0xA3 that is the spec's decision D5, log entry 9); for 0xC6 and 0xC7 all four
parts stand in this order. -/
def Obligations.FieldsInFixedOrder : Prop :=
  ∀ (bs rest : List Byte) (i : Instr), decode bs = .ok (i, rest) →
    ∃ (opc : Byte) (modrm disp imm : List Byte),
      bs = opc :: (modrm ++ disp ++ imm ++ rest) ∧
      modrm.length ≤ 1 ∧ disp.length ≤ 2 ∧ imm.length ≤ 2 ∧
      instrLength i = 1 + modrm.length + disp.length + imm.length ∧
      (match i with
        | .movAxAddr a => modrm = [] ∧ disp = wordBytes a ∧ imm = []
        | .movAddrAx a => modrm = [] ∧ disp = wordBytes a ∧ imm = []
        | .movR8Imm8 _ v => modrm = [] ∧ disp = [] ∧ imm = [v]
        | .movR16Imm16 _ v => modrm = [] ∧ disp = [] ∧ imm = wordBytes v
        | .movRm8R8 rm reg =>
          modrm.length = 1 ∧ modrm ++ disp = encodeRm reg rm ∧ imm = []
        | .movRm16R16 rm reg =>
          modrm.length = 1 ∧ modrm ++ disp = encodeRm reg rm ∧ imm = []
        | .movR8Rm8 reg rm =>
          modrm.length = 1 ∧ modrm ++ disp = encodeRm reg rm ∧ imm = []
        | .movR16Rm16 reg rm =>
          modrm.length = 1 ∧ modrm ++ disp = encodeRm reg rm ∧ imm = []
        | .movRm8Imm8 rm reg v =>
          modrm.length = 1 ∧ modrm ++ disp = encodeRm reg rm ∧ imm = [v]
        | .movRm16Imm16 rm reg v =>
          modrm.length = 1 ∧ modrm ++ disp = encodeRm reg rm ∧ imm = wordBytes v
        | .unrecognized b => opc = b ∧ modrm = [] ∧ disp = [] ∧ imm = []) ∧
      fieldBytes i = (match i with
        | .movAxAddr _ => [disp.length]
        | .movAddrAx _ => [disp.length]
        | .movR8Imm8 _ _ => [imm.length]
        | .movR16Imm16 _ _ => [imm.length]
        | .movRm8R8 _ _ => [modrm.length, disp.length]
        | .movRm16R16 _ _ => [modrm.length, disp.length]
        | .movR8Rm8 _ _ => [modrm.length, disp.length]
        | .movR16Rm16 _ _ => [modrm.length, disp.length]
        | .movRm8Imm8 _ _ _ => [modrm.length, disp.length, imm.length]
        | .movRm16Imm16 _ _ _ => [modrm.length, disp.length, imm.length]
        | .unrecognized _ => [])

/-- R70: the opcode byte alone decides the row, each recognized byte the row of the table, and every
other byte the fallback. -/
def Obligations.OpcodeMapOfTheTable : Prop :=
  ∀ (b : Byte) (bs rest : List Byte) (i : Instr), decode (b :: bs) = .ok (i, rest) →
    (b.toNat = 0x88 ↔ ∃ rm reg, i = .movRm8R8 rm reg) ∧
    (b.toNat = 0x89 ↔ ∃ rm reg, i = .movRm16R16 rm reg) ∧
    (b.toNat = 0x8A ↔ ∃ reg rm, i = .movR8Rm8 reg rm) ∧
    (b.toNat = 0x8B ↔ ∃ reg rm, i = .movR16Rm16 reg rm) ∧
    (b.toNat = 0xA1 ↔ ∃ a, i = .movAxAddr a) ∧
    (b.toNat = 0xA3 ↔ ∃ a, i = .movAddrAx a) ∧
    (0xB0 ≤ b.toNat ∧ b.toNat ≤ 0xB7 ↔ ∃ r v, i = .movR8Imm8 r v) ∧
    (0xB8 ≤ b.toNat ∧ b.toNat ≤ 0xBF ↔ ∃ r v, i = .movR16Imm16 r v) ∧
    (b.toNat = 0xC6 ↔ ∃ rm reg v, i = .movRm8Imm8 rm reg v) ∧
    (b.toNat = 0xC7 ↔ ∃ rm reg v, i = .movRm16Imm16 rm reg v) ∧
    (¬(0x88 ≤ b.toNat ∧ b.toNat ≤ 0x8B ∨ b.toNat = 0xA1 ∨ b.toNat = 0xA3 ∨
        0xB0 ≤ b.toNat ∧ b.toNat ≤ 0xBF ∨ b.toNat = 0xC6 ∨ b.toNat = 0xC7) ↔
      i = .unrecognized b)

/-- A few words of the spec's encodings, one of each format, decode to their instructions. -/
def Obligations.WrittenWordsDecode : Prop :=
  decode [0x89, 0xC1] = .ok (.movRm16R16 (.register 1) 0, []) ∧
  decode [0x8B, 0x06, 0x34, 0x12] = .ok (.movR16Rm16 0 (.directAddress 0x1234), []) ∧
  decode [0xA1, 0x34, 0x12] = .ok (.movAxAddr 0x1234, []) ∧
  decode [0xB4, 0x80] = .ok (.movR8Imm8 4 0x80, []) ∧
  decode [0xBC, 0x00, 0x80] = .ok (.movR16Imm16 4 0x8000, []) ∧
  decode [0xC6, 0x46, 0xFE, 0x80] = .ok (.movRm8Imm8 (.baseDisp8 6 0xFE) 0 0x80, []) ∧
  decode [0xFF, 0x88] = .ok (.unrecognized 0xFF, [0x88])

/-- The ModRM `reg` field of 0xC6/0xC7 changes neither what is consumed nor what the instruction does
in any state. The spec's decision D6 (log entry 10). -/
def Obligations.SizedMovIgnoresRegField : Prop :=
  ∀ (opc m m' : Byte) (bs rest : List Byte) (i : Instr),
    (opc = 0xC6 ∨ opc = 0xC7) → modField m = modField m' → rmField m = rmField m' →
    decode (opc :: m :: bs) = .ok (i, rest) →
    ∃ i', decode (opc :: m' :: bs) = .ok (i', rest) ∧ ∀ s : State, exec i' s = exec i s

/-- R77, R68: what `mod` and `rm` select, how many bytes they consume, and the operand that results:
register-direct; base alone; base and a sign-extended byte, whose value is unchanged; base and a
little-endian word; and the direct address, which has no base and stands alone in brackets, read
signed (log entries 12 and 13: the signed reading and its radix). With a displacement, rm = 110 is
base `bp`. -/
def Obligations.AddressingModes : Prop :=
  ∀ (reg rm : Index) (w : Width) (d lo hi : Byte) (rest : List Byte),
    takeModRm (modRmByte 0b11 reg rm :: rest) = .ok ((reg, .register rm), rest) ∧
    resolveRm w (.register rm) = .reg rm w ∧
    (rm ≠ 0b110 → takeModRm (modRmByte 0b00 reg rm :: rest) = .ok ((reg, .base rm), rest)) ∧
    resolveRm w (.base rm) = .memBase rm 0 ∧
    takeModRm (modRmByte 0b00 reg 0b110 :: lo :: hi :: rest) =
      .ok ((reg, .directAddress (hi ++ lo)), rest) ∧
    resolveRm w (.directAddress (hi ++ lo)) = .memDirect (hi ++ lo) ∧
    takeModRm (modRmByte 0b01 reg rm :: d :: rest) = .ok ((reg, .baseDisp8 rm d), rest) ∧
    (∃ v : Word, resolveRm w (.baseDisp8 rm d) = .memBase rm v ∧ v.toInt = d.toInt ∧
      -128 ≤ v.toInt ∧ v.toInt ≤ 127) ∧
    takeModRm (modRmByte 0b10 reg rm :: lo :: hi :: rest) =
      .ok ((reg, .baseDisp16 rm (hi ++ lo)), rest) ∧
    (∃ v : Word, resolveRm w (.baseDisp16 rm (hi ++ lo)) = .memBase rm v ∧
      v.toNat = lo.toNat + 256 * hi.toNat ∧ -32768 ≤ v.toInt ∧ v.toInt ≤ 32767) ∧
    renderOperand (resolveRm w (.directAddress (hi ++ lo))) =
      "[" ++ dec (hi ++ lo : Word).toInt ++ "]" ∧
    eaBase 0b110 = "bp"

/-! ## The instructions -/

/-- MOV ax, [addr] and MOV [addr], ax: encoding, effect, truncation. The byte order of the address
is the spec's decision D5 (log entry 9). -/
def Obligations.AccumulatorMov : Prop :=
  ∀ (lo hi : Byte) (a : Word) (rest : List Byte),
    decode (0xA1 :: lo :: hi :: rest) = .ok (.movAxAddr (hi ++ lo), rest) ∧
    decode (0xA3 :: lo :: hi :: rest) = .ok (.movAddrAx (hi ++ lo), rest) ∧
    CompletesWith (.movAxAddr a) 3 (.mov (.reg 0 .w16) (.memAbs a)) ∧
    CompletesWith (.movAddrAx a) 3 (.mov (.memAbs a) (.reg 0 .w16)) ∧
    TruncatesAt (.movAxAddr a) 1 3 ∧ TruncatesAt (.movAddrAx a) 1 3

/-- MOV r8, imm8: encoding, effect, truncation. Its line is in LinesOfPlainForms. -/
def Obligations.ByteImmediateToRegister : Prop :=
  ∀ (opc i : Byte) (rest : List Byte), 0xB0 ≤ opc.toNat → opc.toNat ≤ 0xB7 →
    ∃ r : Index, r.toNat = opc.toNat - 0xB0 ∧
      decode (opc :: i :: rest) = .ok (.movR8Imm8 r i, rest) ∧
      CompletesWith (.movR8Imm8 r i) 2 (.mov (.reg r .w8) (.imm i.toInt .w8)) ∧
      i.toInt = (i.signExtend 16).toInt ∧ -128 ≤ i.toInt ∧ i.toInt ≤ 127 ∧
      TruncatesAt (.movR8Imm8 r i) 1 2

/-- MOV r16, imm16: encoding, effect, truncation. Its line is in LinesOfPlainForms. -/
def Obligations.WordImmediateToRegister : Prop :=
  ∀ (opc lo hi : Byte) (rest : List Byte), 0xB8 ≤ opc.toNat → opc.toNat ≤ 0xBF →
    ∃ (r : Index) (i : Word), r.toNat = opc.toNat - 0xB8 ∧
      i.toNat = lo.toNat + 256 * hi.toNat ∧
      decode (opc :: lo :: hi :: rest) = .ok (.movR16Imm16 r i, rest) ∧
      CompletesWith (.movR16Imm16 r i) 3 (.mov (.reg r .w16) (.imm i.toInt .w16)) ∧
      -32768 ≤ i.toInt ∧ i.toInt ≤ 32767 ∧
      TruncatesAt (.movR16Imm16 r i) 1 3

/-- R112: a whole instruction of 0xB0-0xBF is 3 bytes long when bit 3 of the opcode is set and 2 when it
is clear, and its record's immediate is the sign-extended value of its bytes. -/
def Obligations.ImmediateMovLengths : Prop :=
  ∀ (opc : Byte) (bs rest : List Byte) (i : Instr), 0xB0 ≤ opc.toNat → opc.toNat ≤ 0xBF →
    decode (opc :: bs) = .ok (i, rest) →
    (opc :: bs).length = rest.length + (if opc.getLsbD 3 then 3 else 2) ∧
    ∃ (r : Index) (w : Width) (v : Word),
      CompletesWith i (if opc.getLsbD 3 then 3 else 2) (.mov (.reg r w) (.imm v.toInt w)) ∧
      (if opc.getLsbD 3 then ∃ lo hi, bs = lo :: hi :: rest ∧ v = hi ++ lo
       else ∃ b, bs = b :: rest ∧ v = b.signExtend 16)

/-- MOV r/m8, byte imm8: encoding, effect, truncation. Its line is in LinesOfModRmForms. -/
def Obligations.ByteImmediateToRm : Prop :=
  ∀ (m i : Byte) (bs rest : List Byte) (reg : Index) (rm : RmForm),
    takeModRm (m :: bs) = .ok ((reg, rm), i :: rest) →
    decode (0xC6 :: m :: bs) = .ok (.movRm8Imm8 rm reg i, rest) ∧
    CompletesWith (.movRm8Imm8 rm reg i) (3 + dispBytes rm)
      (.movSized (resolveRm .w8 rm) .w8 (.imm i.toInt .w8)) ∧
    -128 ≤ i.toInt ∧ i.toInt ≤ 127 ∧
    TruncatesAt (.movRm8Imm8 rm reg i) 1 2 ∧
    TruncatesAt (.movRm8Imm8 rm reg i) 2 (2 + dispBytes rm) ∧
    TruncatesAt (.movRm8Imm8 rm reg i) (2 + dispBytes rm) (3 + dispBytes rm)

/-- MOV r/m16, word imm16: encoding, effect, truncation. Its line is in LinesOfModRmForms. -/
def Obligations.WordImmediateToRm : Prop :=
  ∀ (m lo hi : Byte) (bs rest : List Byte) (reg : Index) (rm : RmForm),
    takeModRm (m :: bs) = .ok ((reg, rm), lo :: hi :: rest) →
    ∃ i : Word, i.toNat = lo.toNat + 256 * hi.toNat ∧
      decode (0xC7 :: m :: bs) = .ok (.movRm16Imm16 rm reg i, rest) ∧
      CompletesWith (.movRm16Imm16 rm reg i) (4 + dispBytes rm)
        (.movSized (resolveRm .w16 rm) .w16 (.imm i.toInt .w16)) ∧
      -32768 ≤ i.toInt ∧ i.toInt ≤ 32767 ∧
      TruncatesAt (.movRm16Imm16 rm reg i) 1 2 ∧
      TruncatesAt (.movRm16Imm16 rm reg i) 2 (2 + dispBytes rm) ∧
      TruncatesAt (.movRm16Imm16 rm reg i) (2 + dispBytes rm) (4 + dispBytes rm)

/-- A register destination of 0xC6/0xC7 keeps the sized record, and its text keeps the keyword. The
spec's decision D7 (log entry 11); the text rests on D9 to D11 too (log entry 13). -/
def Obligations.SizedMovToRegister : Prop :=
  ∀ (reg r : Index) (i : Byte) (v : Word),
    CompletesWith (.movRm8Imm8 (.register r) reg i) 3
      (.movSized (.reg r .w8) .w8 (.imm i.toInt .w8)) ∧
    CompletesWith (.movRm16Imm16 (.register r) reg v) 4
      (.movSized (.reg r .w16) .w16 (.imm v.toInt .w16)) ∧
    renderRecord (.movSized (.reg r .w8) .w8 (.imm i.toInt .w8)) =
      "\tmov " ++ reg8Name r ++ ", byte " ++ dec i.toInt ∧
    renderRecord (.movSized (.reg r .w16) .w16 (.imm v.toInt .w16)) =
      "\tmov " ++ reg16Name r ++ ", word " ++ dec v.toInt

/-- The four register/memory forms: encoding, effect with the order of d and the width of w, and the
two truncation points. Their lines are in LinesOfModRmForms. -/
def Obligations.RegisterMemoryMov : Prop :=
  ∀ (reg : Index) (rm : RmForm),
    (∀ (m : Byte) (bs rest : List Byte), takeModRm (m :: bs) = .ok ((reg, rm), rest) →
      decode (0x88 :: m :: bs) = .ok (.movRm8R8 rm reg, rest) ∧
      decode (0x89 :: m :: bs) = .ok (.movRm16R16 rm reg, rest) ∧
      decode (0x8A :: m :: bs) = .ok (.movR8Rm8 reg rm, rest) ∧
      decode (0x8B :: m :: bs) = .ok (.movR16Rm16 reg rm, rest)) ∧
    CompletesWith (.movRm8R8 rm reg) (2 + dispBytes rm)
      (.mov (resolveRm .w8 rm) (.reg reg .w8)) ∧
    CompletesWith (.movRm16R16 rm reg) (2 + dispBytes rm)
      (.mov (resolveRm .w16 rm) (.reg reg .w16)) ∧
    CompletesWith (.movR8Rm8 reg rm) (2 + dispBytes rm)
      (.mov (.reg reg .w8) (resolveRm .w8 rm)) ∧
    CompletesWith (.movR16Rm16 reg rm) (2 + dispBytes rm)
      (.mov (.reg reg .w16) (resolveRm .w16 rm)) ∧
    (∀ i ∈ [Instr.movRm8R8 rm reg, .movRm16R16 rm reg, .movR8Rm8 reg rm, .movR16Rm16 reg rm],
      TruncatesAt i 1 2 ∧ TruncatesAt i 2 (2 + dispBytes rm))

/-- R134: for every opcode 0x88-0x8B and every ModRM byte with mod = 11, the byte pair is a whole
instruction; it appends exactly one `Mov` of two registers of width w and moves CURSOR by 2. -/
def Obligations.RegisterDirectPair : Prop :=
  ∀ (opc m : Byte) (rest : List Byte), 0x88 ≤ opc.toNat → opc.toNat ≤ 0x8B → modField m = 0b11 →
    ∃ (i : Instr) (w : Width) (r1 r2 : Index),
      decode (opc :: m :: rest) = .ok (i, rest) ∧
      w = (if opc.getLsbD 0 then .w16 else .w8) ∧
      (if opc.getLsbD 1 then r1 = regField m ∧ r2 = rmField m
       else r1 = rmField m ∧ r2 = regField m) ∧
      CompletesWith i 2 (.mov (.reg r1 w) (.reg r2 w))

/-- An unrecognized byte appends its diagnostic, is skipped alone, and decoding goes on, whatever bytes
follow it. The record's text and the cause codes are the spec's decisions D9 and D12 (log entries 13
and 15). -/
def Obligations.UnrecognizedByteSkipped : Prop :=
  ∀ b : Byte, CompletesWith (.unrecognized b) 1 (.diagUnrecognized b) ∧
    ∀ s : State, s.status = .run → isMovOpcode b = false → memRead8 s s.cursor = some b →
      step s = .next { s with
        cursor := s.cursor + 1
        status := if s.cursor + 1 = s.len then .done else .run
        out := s.out ++ [.diagUnrecognized b] }

/-! ## Events -/

/-- A step in RUN whose bytes end inside an instruction appends the truncation diagnostic, leaves CURSOR
at the failing check, and ends the run. Where CURSOR is left is the spec's decision D8 (log entry
14); the name TRUNC is D12 (log entry 15). -/
def Obligations.TruncationStopsTheRun : Prop :=
  ∀ (s : State) (consumed need : Nat), s.status = .run →
    decode (fetchBytes s) = .error (.truncated consumed need) →
    s.len - (s.cursor + consumed) < need →
    ∃ t : State, step s = .next t ∧
      t = { s with
        cursor := s.cursor + consumed
        status := .trunc
        out := s.out ++ [.diagTruncated] } ∧
      step t = .fault .runEnded

/-- When a step truncates: exactly when fewer bytes remain than the length that the opcode and ModRM
bytes declare; otherwise CURSOR moves by exactly that length. Where the truncation leaves CURSOR, by
opcode and by the bytes that remain, is the table of R143, with the spec's decision D8 (log entry 14).
(R76 marks the lengths as its own inference; where no ModRM byte remains, any value stands in for it,
because the instruction truncates whatever D is.) -/
def Obligations.TruncatesExactlyWhenShort : Prop :=
  ∀ (s : State) (opc m : Byte), Inv s → s.status = .run → memRead8 s s.cursor = some opc →
    (s.cursor + 1 < s.len → memRead8 s (s.cursor + 1) = some m) →
    ∃ t : State, step s = .next t ∧
      (t.status = .trunc ↔ s.len - s.cursor < declaredLength opc m) ∧
      (t.status ≠ .trunc → t.cursor = s.cursor + declaredLength opc m) ∧
      (t.status = .trunc →
        (opc.toNat = 0xA1 ∨ opc.toNat = 0xA3 ∨ 0xB0 ≤ opc.toNat ∧ opc.toNat ≤ 0xBF →
          t.cursor = s.cursor + 1) ∧
        (0x88 ≤ opc.toNat ∧ opc.toNat ≤ 0x8B →
          t.cursor = s.cursor + (if s.len - s.cursor < 2 then 1 else 2)) ∧
        (opc.toNat = 0xC6 ∨ opc.toNat = 0xC7 →
          t.cursor = s.cursor + (if s.len - s.cursor < 2 then 1
            else if s.len - s.cursor < 2 + modRmDisp m then 2 else 2 + modRmDisp m)))

/-- R145: the whole effect of a step that raises an event is its one diagnostic record and the writes of
CURSOR and STATUS: no record of an instruction, every earlier record as it was, nothing saved. A byte
in no family raises the first event; the second is raised exactly where the bytes end inside an
instruction, which only an opcode of a family begins; and no other step appends a diagnostic. -/
def Obligations.EventsArePrecise : Prop :=
  ∀ s t : State, step s = .next t →
    (∀ b, memRead8 s s.cursor = some b → isMovOpcode b = false →
      t = { s with
        cursor := s.cursor + 1
        status := if s.cursor + 1 = s.len then .done else .run
        out := s.out ++ [.diagUnrecognized b] }) ∧
    (t.status = .trunc ↔
      ∃ consumed need, decode (fetchBytes s) = .error (.truncated consumed need)) ∧
    (t.status = .trunc →
      (∃ b, memRead8 s s.cursor = some b ∧ isMovOpcode b = true) ∧
      t = { s with
        cursor := t.cursor
        status := .trunc
        out := s.out ++ [.diagTruncated] }) ∧
    (∀ b, .diagUnrecognized b ∈ t.out.drop s.out.length →
      memRead8 s s.cursor = some b ∧ isMovOpcode b = false) ∧
    (.diagTruncated ∈ t.out.drop s.out.length → t.status = .trunc)

/-! ## The step -/

/-- In RUN, when the bytes at CURSOR decode to an instruction, the step is exec of it. -/
def Obligations.StepRunsTheDecodedInstruction : Prop :=
  ∀ (s : State) (i : Instr) (rest : List Byte), s.status = .run →
    decode (fetchBytes s) = .ok (i, rest) → step s = exec i s

/-- In RUN, when the buffer holds the encoding of a well-formed instruction at CURSOR, whatever stands
after it, the step is exec of that instruction, and the instruction completes there: it is not
truncated. -/
def Obligations.StepRunsTheEncodedInstruction : Prop :=
  ∀ (s : State) (i : Instr), s.status = .run → i.wf = true →
    (∀ k, k < (encode i).length → memRead8 s (s.cursor + k) = (encode i)[k]?) →
    step s = exec i s ∧ s.cursor + instrLength i ≤ s.len ∧
      exec i s = .next (advance (s.cursor + instrLength i) (emit (recordOf i) s))

/-- Every meaning answers a next state, in every state, and its frame: the buffer, LEN, and the read of
every byte are as before, and OUT grows by exactly one record; CURSOR and STATUS are what it writes. -/
def Obligations.ExecFrame : Prop :=
  ∀ (i : Instr) (s : State), ∃ (t : State) (r : Record), exec i s = .next t ∧
    t.buf = s.buf ∧ t.len = s.len ∧ (∀ a, memRead8 t a = memRead8 s a) ∧
    t.out = s.out ++ [r] ∧ (r = recordOf i ∨ r = .diagTruncated) ∧
    (∀ b, i = .unrecognized b → r = recordOf i)

/-- The frame of a step: the buffer, LEN and every byte's read are as before, and exactly one record,
a legal one, is appended. -/
def Obligations.StepFrame : Prop :=
  ∀ s t : State, step s = .next t →
    t.buf = s.buf ∧ t.len = s.len ∧ (∀ a, memRead8 t a = memRead8 s a) ∧
    ∃ r, t.out = s.out ++ [r] ∧ recordLegal r = true

/-- CURSOR strictly increases, by at most 6, and never passes LEN. -/
def Obligations.CursorAdvances : Prop :=
  ∀ s t : State, step s = .next t →
    s.cursor < t.cursor ∧ t.cursor ≤ s.cursor + 6 ∧ t.cursor ≤ t.len

/-- STATUS after a step: TRUNC exactly when the appended record is the truncation diagnostic, and
otherwise DONE at LEN and RUN before it. -/
def Obligations.StatusAfterStep : Prop :=
  ∀ s t : State, step s = .next t →
    (t.status = .trunc ↔ t.out = s.out ++ [.diagTruncated]) ∧
    (t.status ≠ .trunc → (t.status = .done ↔ t.cursor = t.len) ∧ (t.status = .run ↔ t.cursor < t.len))

/-- DONE and TRUNC are terminal, and the step says so by name (the fault is the model's, log entry 4). -/
def Obligations.TerminalStatusHasNoStep : Prop :=
  ∀ s : State, (s.status = .done ∨ s.status = .trunc) ↔ step s = .fault .runEnded

/-- A step reads only the bytes of its own instruction: two buffers that agree on the at most 6 bytes
from CURSOR that lie below LEN give the same step but for the buffer itself. Neither earlier bytes nor
bytes past LEN matter. -/
def Obligations.StepReadsOnlyItsWindow : Prop :=
  ∀ (s t : State) (m : Memory),
    (∀ a, s.cursor ≤ a → a < s.cursor + 6 → a < s.len → m.read a = s.buf.read a) →
    step s = .next t → step { s with buf := m } = .next { t with buf := m }

/-- A step does not read OUT: with any other history it appends the same record and does the same to
CURSOR and STATUS. -/
def Obligations.StepIgnoresHistory : Prop :=
  ∀ (s t : State) (o : List Record), step s = .next t →
    ∃ r, t.out = s.out ++ [r] ∧ step { s with out := o } = .next { t with out := o ++ [r] }

/-- What the host places by `withFetchWord` is what the next step runs, at any state (the placing
stands for the host's load, log entry 2). -/
def Obligations.PlacedWordIsRun : Prop :=
  ∀ (s : State) (nbits w : Nat), ∃ i : Instr,
    decodeTableWord nbits w = some i ∧ i.wf = true ∧
    step (s.withFetchWord nbits w) =
      .next (advance (s.cursor + instrLength i) (emit (recordOf i) (s.withFetchWord nbits w)))

/-! ## The invariant -/

/-- The invariant holds right after reset with nothing supplied, and LEN is one the host may supply,
whatever MAX_LEN is. -/
def Obligations.InvariantAtReset : Prop := Inv State.reset ∧ LenLegal State.reset

/-- Reset with any input the host loads: CURSOR, STATUS and OUT as R160 and R161 give them (the
spec's decision D3, log entry 16), every byte readable at its index and none past LEN, and the
invariant holds; with nothing loaded it is `State.reset` (log entry 1). -/
def Obligations.ResetOnAnyInput : Prop :=
  resetBytes [] = State.reset ∧
  ∀ bs : List Byte,
    Inv (resetBytes bs) ∧ (resetBytes bs).cursor = 0 ∧ (resetBytes bs).len = bs.length ∧
    (resetBytes bs).out = [.header, .blank] ∧
    (resetBytes bs).status = (if bs = [] then .done else .run) ∧
    ∀ a, memRead8 (resetBytes bs) a = bs[a]?

/-- Every step keeps the invariant. -/
def Obligations.StepKeepsInvariant : Prop :=
  ∀ s t : State, Inv s → step s = .next t → Inv t

/-- In a state of a run, a step is a next state exactly in RUN, and otherwise the end of the run: it is
never refused and never reads outside the buffer. -/
def Obligations.RunningStateSteps : Prop :=
  ∀ s : State, Inv s → Allowed (step s) ∧ (s.status = .run ↔ ∃ t, step s = .next t)

/-! ## The run -/

/-- Every run ends: from any state of a run, in at most one step for each byte left. -/
def Obligations.EveryRunEnds : Prop :=
  ∀ s : State, Inv s → ∃ (k : Nat) (t : State), k ≤ s.len - s.cursor ∧
    runSteps k s = .next t ∧ t.status ≠ .run ∧ Inv t

/-- The machine meets its contract: for every input, the run from reset ends, with OUT equal to the pure
function `decodeAll` of the bytes. -/
def Obligations.RunMeetsContract : Prop :=
  ∀ bs : List Byte, ∃ (k : Nat) (t : State), k ≤ bs.length ∧
    runSteps k (resetBytes bs) = .next t ∧ t.status ≠ .run ∧ t.out = decodeAll bs ∧
    outputText t = renderText (decodeAll bs)

/-- The records account for every byte consumed: at every point of a run that has not been truncated,
the bytes before CURSOR are the encodings of well-formed instructions, one after another, and OUT is
the header followed by their records. -/
def Obligations.RecordsAccountForEveryByte : Prop :=
  ∀ (bs : List Byte) (k : Nat) (t : State), runSteps k (resetBytes bs) = .next t →
    t.status ≠ .trunc →
    ∃ is : List Instr, is.length = k ∧ (∀ i ∈ is, i.wf = true) ∧
      bs.take t.cursor = is.flatMap encode ∧ t.out = .header :: .blank :: is.map recordOf

/-- R25: OUT is append-only over a run, and holds the header at reset. -/
def Obligations.OutputIsAppendOnly : Prop :=
  (∀ bs : List Byte, (resetBytes bs).out = [.header, .blank]) ∧
  ∀ (k : Nat) (s t : State), runSteps k s = .next t →
    ∃ rs : List Record, t.out = s.out ++ rs ∧ rs.length = k

/-- R23: the buffer and LEN are as the host supplied them at reset, constant over a run, and no byte is
defined at an index that is not below LEN. -/
def Obligations.BufferIsConstant : Prop :=
  (∀ (m : Memory) (n : Nat), (resetWith m n).buf = m ∧ (resetWith m n).len = n) ∧
  ∀ (k : Nat) (s t : State), runSteps k s = .next t →
    t.buf = s.buf ∧ t.len = s.len ∧ (LenLegal s → LenLegal t) ∧
    (∀ a, memRead8 t a = memRead8 s a) ∧ ∀ a, s.len ≤ a → memRead8 t a = none

/-! ## Reads -/

/-- MemRead: one byte is the buffer's; two bytes are little-endian, at any index, odd or even. -/
def Obligations.MemReadIsLittleEndian : Prop :=
  ∀ (s : State) (a : Nat),
    (a + 1 ≤ s.len → memRead8 s a = s.buf.read a) ∧
    ∀ lo hi : Byte, memRead8 s a = some lo → memRead8 s (a + 1) = some hi →
      ∃ v : Word, memRead16 s a = some v ∧ v.toNat = lo.toNat + 256 * hi.toNat

/-- The address field that 0xA1 or 0xA3 decodes at CURSOR is MemRead of the two bytes after the opcode. -/
def Obligations.AddressFieldIsMemRead : Prop :=
  ∀ (s : State) (a : Word), s.status = .run → memRead16 s (s.cursor + 1) = some a →
    (memRead8 s s.cursor = some 0xA1 → step s = exec (.movAxAddr a) s) ∧
    (memRead8 s s.cursor = some 0xA3 → step s = exec (.movAddrAx a) s)

/-! ## The text -/

/-- `dec` writes decimal numerals: digits only, not empty, of the right value, with no leading zero but
for zero itself, and a minus sign exactly for a negative number (the spec's decision D4, log entry
13). -/
def Obligations.DecimalNumerals : Prop :=
  (∀ n : Nat, (decNat n).toList ≠ [] ∧ (∀ c ∈ (decNat n).toList, c.isDigit = true) ∧
    numeralValue (decNat n).toList = n ∧
    ((decNat n).toList.head? = some '0' → decNat n = "0")) ∧
  ∀ n : Nat, dec n = decNat n ∧ (n ≠ 0 → dec (-(n : Int)) = "-" ++ decNat n)

/-- The text of a base and displacement, by the displacement's bits: the base alone at zero, else the
sign and the magnitude, 32768 for 0x8000 (the spec's decision D11, log entry 13). -/
def Obligations.DisplacementText : Prop :=
  ∀ (rm : Index) (d : Word),
    (d = 0 → renderOperand (.memBase rm d) = "[" ++ eaBase rm ++ "]") ∧
    (d ≠ 0 → d.toNat < 0x8000 →
      renderOperand (.memBase rm d) = "[" ++ eaBase rm ++ " + " ++ decNat d.toNat ++ "]") ∧
    (0x8000 ≤ d.toNat →
      renderOperand (.memBase rm d) = "[" ++ eaBase rm ++ " - " ++ decNat (0x10000 - d.toNat) ++ "]")

/-- The direct and the absolute address of the same 16 bits have the same text exactly below 0x8000; the
absolute one is always the unsigned numeral (R69, 90_conflicts.md C1; the radix is D4, log entries 12
and 13). -/
def Obligations.AddressTextDiffersOnlyAbove : Prop :=
  ∀ a : Word, renderOperand (.memAbs a) = "[" ++ decNat a.toNat ++ "]" ∧
    (0x8000 ≤ a.toNat →
      renderOperand (.memDirect a) = "[-" ++ decNat (0x10000 - a.toNat) ++ "]") ∧
    (renderOperand (.memDirect a) = renderOperand (.memAbs a) ↔ a.toNat < 0x8000)

/-- The lines of the forms without a ModRM byte, by the bits of their operands: immediates in signed decimal,
absolute addresses in unsigned decimal, the unrecognized byte in two upper-case hexadecimal digits
whose value is the byte (the spec's decisions D4 and D9 to D11, log entry 13). -/
def Obligations.LinesOfPlainForms : Prop :=
  ∀ (r : Index) (b : Byte) (v : Word),
    renderRecord (recordOf (.movR8Imm8 r b)) = "\tmov " ++ reg8Name r ++ ", " ++
      (if b.toNat < 0x80 then decNat b.toNat else "-" ++ decNat (0x100 - b.toNat)) ∧
    renderRecord (recordOf (.movR16Imm16 r v)) = "\tmov " ++ reg16Name r ++ ", " ++
      (if v.toNat < 0x8000 then decNat v.toNat else "-" ++ decNat (0x10000 - v.toNat)) ∧
    renderRecord (recordOf (.movAxAddr v)) = "\tmov ax, [" ++ decNat v.toNat ++ "]" ∧
    renderRecord (recordOf (.movAddrAx v)) = "\tmov [" ++ decNat v.toNat ++ "], ax" ∧
    renderRecord (recordOf (.unrecognized b)) = "\t; unrecognized opcode 0x" ++ hexByte b ∧
    (hexByte b).toList.map (fun c => "0123456789ABCDEF".toList.idxOf c) =
      [b.toNat / 16, b.toNat % 16]

/-- The lines of the forms with a ModRM byte, and the three lookup tables: the register names and the
base expressions by index (R80 to R82; the lines rest on the spec's decisions D4, D7 and D9 to D11, log
entries 11 and 13). The text of a memory operand is in DisplacementText and
AddressTextDiffersOnlyAbove. -/
def Obligations.LinesOfModRmForms : Prop :=
  (∀ (reg r : Index) (rm : RmForm) (b : Byte) (v : Word),
    renderRecord (recordOf (.movRm8R8 rm reg)) =
      "\tmov " ++ renderOperand (resolveRm .w8 rm) ++ ", " ++ reg8Name reg ∧
    renderRecord (recordOf (.movRm16R16 rm reg)) =
      "\tmov " ++ renderOperand (resolveRm .w16 rm) ++ ", " ++ reg16Name reg ∧
    renderRecord (recordOf (.movR8Rm8 reg rm)) =
      "\tmov " ++ reg8Name reg ++ ", " ++ renderOperand (resolveRm .w8 rm) ∧
    renderRecord (recordOf (.movR16Rm16 reg rm)) =
      "\tmov " ++ reg16Name reg ++ ", " ++ renderOperand (resolveRm .w16 rm) ∧
    renderRecord (recordOf (.movRm8Imm8 rm reg b)) =
      "\tmov " ++ renderOperand (resolveRm .w8 rm) ++ ", byte " ++
        (if b.toNat < 0x80 then decNat b.toNat else "-" ++ decNat (0x100 - b.toNat)) ∧
    renderRecord (recordOf (.movRm16Imm16 rm reg v)) =
      "\tmov " ++ renderOperand (resolveRm .w16 rm) ++ ", word " ++
        (if v.toNat < 0x8000 then decNat v.toNat else "-" ++ decNat (0x10000 - v.toNat)) ∧
    renderOperand (resolveRm .w8 (.register r)) = reg8Name r ∧
    renderOperand (resolveRm .w16 (.register r)) = reg16Name r) ∧
  ∀ r : Index,
    ["al", "cl", "dl", "bl", "ah", "ch", "dh", "bh"][r.toNat]? = some (reg8Name r) ∧
    ["ax", "cx", "dx", "bx", "sp", "bp", "si", "di"][r.toNat]? = some (reg16Name r) ∧
    ["bx + si", "bx + di", "bp + si", "bp + di", "si", "di", "bp", "bx"][r.toNat]? =
      some (eaBase r)

/-- The worked examples of the source, as the whole text of a run (spacing and wording: log entry 13). -/
def Obligations.WorkedExamples : Prop :=
  renderText (decodeAll [0x89, 0xC1]) = "bits 16\n\n\tmov cx, ax\n" ∧
  renderText (decodeAll [0x8B, 0x06, 0x34, 0x12]) = "bits 16\n\n\tmov ax, [4660]\n" ∧
  renderText (decodeAll [0xFF, 0x88, 0xC3]) =
    "bits 16\n\n\t; unrecognized opcode 0xFF\n\tmov bl, al\n" ∧
  renderText (decodeAll [0x8B]) = "bits 16\n\n\t; truncated instruction\n"

/-- The text is line-oriented: every record gives one line, ended by LF and with no other LF, and each
line after the header starts with one tab and has no other (the spec's decisions D9 and D10, log entry
13). -/
def Obligations.OneLineForEachRecord : Prop :=
  (∀ rs : List Record, (renderText rs).toList.count '\n' = rs.length) ∧
  (∀ r : Record, recordLegal r = true →
    (renderRecord r).toList.head? = some '\t' ∧ (renderRecord r).toList.count '\t' = 1) ∧
  (renderRecord .header).toList.count '\t' = 0 ∧ renderRecord .blank = "" ∧
  ∀ (r : Record) (rs : List Record), renderText (r :: rs) = renderRecord r ++ "\n" ++ renderText rs
end

