-- ==== Sys2Proof/Laws/Decode.lean ====
section
/-! SUPPORT. What each part of the decoder can answer. -/

namespace Sys2Proof

/-! ## Consuming operations -/

theorem take8_ok (n : Nat) (bs : List Byte) (b : Byte) (rest : List Byte) :
    take8 n bs = .ok (b, rest) ↔ bs = b :: rest := by
  cases bs <;> simp [take8]

theorem take8_error (n : Nat) (bs : List Byte) (e : DecodeError) :
    take8 n bs = .error e ↔ bs = [] ∧ e = .truncated n 1 := by
  cases bs <;> simp [take8, eq_comm]

theorem take16_ok (n : Nat) (bs : List Byte) (v : Word) (rest : List Byte) :
    take16 n bs = .ok (v, rest) ↔ ∃ lo hi, bs = lo :: hi :: rest ∧ v = littleEndian lo hi := by
  rcases bs with _ | ⟨lo, _ | ⟨hi, bs⟩⟩ <;> simp [take16, eq_comm, and_comm]

theorem take16_error (n : Nat) (bs : List Byte) (e : DecodeError) :
    take16 n bs = .error e ↔ bs.length < 2 ∧ e = .truncated n 2 := by
  rcases bs with _ | ⟨lo, _ | ⟨hi, bs⟩⟩ <;> simp [take16, eq_comm]

theorem map_ok {α β : Type} (f : α → β) (x : Except DecodeError α) (b : β) :
    x.map f = .ok b ↔ ∃ a, x = .ok a ∧ f a = b := by
  cases x <;> simp [Except.map]

theorem map_error {α β : Type} (f : α → β) (x : Except DecodeError α) (e : DecodeError) :
    x.map f = .error e ↔ x = .error e := by
  cases x <;> simp [Except.map]

/-! ## Fields -/

/-- The bits of a little-endian pair: the low byte's, then the high byte's. -/
theorem littleEndian_getLsbD (lo hi : Byte) (i : Nat) :
    (littleEndian lo hi).getLsbD i = if i < 8 then lo.getLsbD i else hi.getLsbD (i - 8) := by
  have h := BitVec.getLsbD_append (x := hi) (y := lo) (i := i)
  rw [littleEndian]
  exact h

/-- The low byte of a little-endian pair comes first (R43). -/
theorem wordBytes_littleEndian (lo hi : Byte) : wordBytes (littleEndian lo hi) = [lo, hi] := by
  have h1 : (littleEndian lo hi).extractLsb' 0 8 = lo := by
    refine BitVec.eq_of_getLsbD_eq fun i h => ?_
    simp [littleEndian_getLsbD, h]
  have h2 : (littleEndian lo hi).extractLsb' 8 8 = hi := by
    refine BitVec.eq_of_getLsbD_eq fun i h => ?_
    simp [littleEndian_getLsbD, h]
  rw [wordBytes, h1, h2]

theorem littleEndian_wordBytes (v : Word) :
    littleEndian (v.extractLsb' 0 8) (v.extractLsb' 8 8) = v := by
  refine BitVec.eq_of_getLsbD_eq fun i h => ?_
  rw [littleEndian_getLsbD]
  split
  · simp_all
  · simp [show i - 8 < 8 by omega, show 8 + (i - 8) = i by omega]

/-- The value of a little-endian pair (20_memory.md R42). -/
theorem littleEndian_toNat (lo hi : Byte) :
    (littleEndian lo hi).toNat = lo.toNat + 256 * hi.toNat := by
  rw [littleEndian, BitVec.toNat_append, Nat.shiftLeft_eq, ← Nat.shiftLeft_eq,
    ← Nat.shiftLeft_add_eq_or_of_lt lo.isLt, Nat.shiftLeft_eq]
  omega

/-- A 16-bit field reads back from its two bytes. -/
theorem take16_wordBytes (n : Nat) (v : Word) (rest : List Byte) :
    take16 n (wordBytes v ++ rest) = .ok (v, rest) := by
  simp [wordBytes, take16, littleEndian_wordBytes]

/-- A ModRM byte is its three fields (R65). -/
theorem modRmByte_fields (m : Byte) : modRmByte (modField m) (regField m) (rmField m) = m := by
  revert m
  decide

theorem modRmByte_split (mod : BitVec 2) (reg rm : Index) :
    modField (modRmByte mod reg rm) = mod ∧ regField (modRmByte mod reg rm) = reg ∧
      rmField (modRmByte mod reg rm) = rm := by
  revert mod reg rm
  decide

/-- The two listings of the recognized bytes agree (R70, R71). -/
theorem classify_unrecognized (b : Byte) : classify b = .unrecognized ↔ isMovOpcode b = false := by
  revert b
  decide

/-! ## The opcode bytes of each class -/

theorem classify_accLoad (b : Byte) : classify b = .accLoad ↔ b = 0xA1 := by
  revert b
  decide

theorem classify_accStore (b : Byte) : classify b = .accStore ↔ b = 0xA3 := by
  revert b
  decide

theorem classify_immRm8 (b : Byte) : classify b = .immRm8 ↔ b = 0xC6 := by
  revert b
  decide

theorem classify_immRm16 (b : Byte) : classify b = .immRm16 ↔ b = 0xC7 := by
  revert b
  decide

theorem classify_rmReg (b : Byte) (d w : Bool) :
    classify b = .rmReg d w ↔
      b = (match d, w with
        | false, false => 0x88
        | false, true => 0x89
        | true, false => 0x8A
        | true, true => 0x8B) := by
  revert b d w
  decide

theorem classify_immReg8 (b : Byte) :
    classify b = .immReg8 ↔ b = (0b10110#5 ++ opcReg b : BitVec 8) := by
  revert b
  decide

theorem classify_immReg16 (b : Byte) :
    classify b = .immReg16 ↔ b = (0b10111#5 ++ opcReg b : BitVec 8) := by
  revert b
  decide

theorem opcReg_immReg8 (r : Index) : opcReg (0b10110#5 ++ r : BitVec 8) = r := by
  revert r
  decide

theorem opcReg_immReg16 (r : Index) : opcReg (0b10111#5 ++ r : BitVec 8) = r := by
  revert r
  decide

/-! ## The ModRM byte and its displacement -/

/-- The forms that the decoder reads are well-formed. -/
theorem takeRm_wf (mod : BitVec 2) (rm : Index) (n : Nat) (bs rest : List Byte) (form : RmForm)
    (h : takeRm mod rm n bs = .ok (form, rest)) : form.wf = true := by
  unfold takeRm at h
  split_ifs at h with h1 h2 h3 h4
  · cases h; rfl
  · cases h' : take8 n bs <;> rw [h'] at h <;> cases h; rfl
  · cases h' : take16 n bs <;> rw [h'] at h <;> cases h; rfl
  · cases h' : take16 n bs <;> rw [h'] at h <;> cases h; rfl
  · cases h
    simpa [RmForm.wf] using h4

/-- The bytes of a form are the ModRM byte and the bytes read after it. -/
theorem takeRm_encode (mod : BitVec 2) (reg rm : Index) (n : Nat) (bs rest : List Byte)
    (form : RmForm) (h : takeRm mod rm n bs = .ok (form, rest)) :
    encodeRm reg form ++ rest = modRmByte mod reg rm :: bs := by
  have hmod : mod ≠ 0b11 → mod ≠ 0b01 → mod ≠ 0b10 → mod = 0b00 := by
    clear h
    revert mod
    decide
  unfold takeRm at h
  split_ifs at h with h1 h2 h3 h4
  · cases h
    simp [encodeRm, h1]
  · obtain ⟨⟨b, r⟩, hb, hf⟩ := (map_ok _ _ _).1 h
    rw [take8_ok] at hb
    cases hf
    simp [encodeRm, hb, h2]
  · obtain ⟨⟨b, r⟩, hb, hf⟩ := (map_ok _ _ _).1 h
    obtain ⟨lo, hi, hbs, rfl⟩ := (take16_ok _ _ _ _).1 hb
    cases hf
    simp [encodeRm, hbs, h3, wordBytes_littleEndian]
  · obtain ⟨⟨b, r⟩, hb, hf⟩ := (map_ok _ _ _).1 h
    obtain ⟨lo, hi, hbs, rfl⟩ := (take16_ok _ _ _ _).1 hb
    cases hf
    simp [encodeRm, hbs, h4, wordBytes_littleEndian, hmod h1 h2 h3]
  · cases h
    simp [encodeRm, hmod h1 h2 h3]

/-- What `takeModRm` reads is well-formed, and its encoding is the bytes read. -/
theorem takeModRm_encode (bs rest : List Byte) (reg : Index) (rm : RmForm)
    (h : takeModRm bs = .ok ((reg, rm), rest)) :
    rm.wf = true ∧ encodeRm reg rm ++ rest = bs := by
  unfold takeModRm at h
  cases bs with
  | nil => simp [take8] at h
  | cons m bs =>
    simp only [take8] at h
    obtain ⟨⟨f, r⟩, hb, hf⟩ := (map_ok _ _ _).1 h
    simp only [Prod.mk.injEq] at hf
    obtain ⟨⟨rfl, rfl⟩, rfl⟩ := hf
    refine ⟨takeRm_wf _ _ _ _ _ _ hb, ?_⟩
    rw [takeRm_encode _ (regField m) _ _ _ _ _ hb, modRmByte_fields]

/-- The encoding of a well-formed form reads back. -/
theorem takeModRm_encodeRm (reg : Index) (rm : RmForm) (rest : List Byte) (h : rm.wf = true) :
    takeModRm (encodeRm reg rm ++ rest) = .ok ((reg, rm), rest) := by
  cases rm <;> simp [encodeRm, takeModRm, take8, modRmByte_split, takeRm, take16_wordBytes,
    Except.map, RmForm.wf] at h ⊢
  rw [if_neg h]

/-! ## Rejections -/

theorem takeRm_error (mod : BitVec 2) (rm : Index) (n : Nat) (bs : List Byte) (e : DecodeError)
    (h : takeRm mod rm n bs = .error e) :
    ∃ k, e = .truncated n k ∧ bs.length < k ∧ k ≤ 2 := by
  unfold takeRm at h
  split_ifs at h
  · rw [map_error, take8_error] at h
    exact ⟨1, h.2, by simp [h.1], by omega⟩
  · rw [map_error, take16_error] at h
    exact ⟨2, h.2, h.1, le_refl _⟩
  · rw [map_error, take16_error] at h
    exact ⟨2, h.2, h.1, le_refl _⟩

/-- A rejection after `n` bytes in all: some were consumed, and the next field passes the end. -/
def ShortBy (n bound : Nat) (e : DecodeError) : Prop :=
  ∃ c k, e = .truncated c k ∧ 1 ≤ c ∧ c ≤ n ∧ n < c + k ∧ c + k ≤ bound

theorem takeModRm_error (bs : List Byte) (e : DecodeError) (h : takeModRm bs = .error e) :
    ShortBy (bs.length + 1) 4 e := by
  unfold takeModRm at h
  cases bs with
  | nil =>
    simp only [take8, Except.error.injEq] at h
    exact ⟨1, 1, h.symm, by simp⟩
  | cons m bs =>
    simp only [take8, map_error] at h
    obtain ⟨k, he, hk, hk'⟩ := takeRm_error _ _ _ _ _ h
    exact ⟨2, k, he, by simp; omega⟩

/-- An immediate that is missing after a ModRM byte and its displacement. -/
theorem takeModRm_then_short (bs rest : List Byte) (reg : Index) (rm : RmForm) (k : Nat)
    (h : takeModRm bs = .ok ((reg, rm), rest)) (hk : rest.length < k) (hk2 : k ≤ 2) :
    ShortBy (bs.length + 1) 6 (.truncated (2 + dispBytes rm) k) := by
  have hl := congrArg List.length (takeModRm_encode _ _ _ _ h).2
  have hd : (encodeRm reg rm).length = 1 + dispBytes rm := by cases rm <;> rfl
  have hb : dispBytes rm ≤ 2 := by cases rm <;> simp [dispBytes]
  rw [List.length_append, hd] at hl
  exact ⟨_, _, rfl, by omega, by omega, by omega, by omega⟩

theorem ShortBy.mono (n b b' : Nat) (e : DecodeError) (h : ShortBy n b e) (hb : b ≤ b') :
    ShortBy n b' e := by
  obtain ⟨c, k, he, h1, h2, h3, h4⟩ := h
  exact ⟨c, k, he, h1, h2, h3, by omega⟩

/-- Everything a rejection of a byte list with an opcode byte can be: the opcode is recognized, and a
field after it is not all there (R143, R144). -/
theorem decode_error (b : Byte) (bs : List Byte) (e : DecodeError)
    (h : decode (b :: bs) = .error e) : isMovOpcode b = true ∧ ShortBy (bs.length + 1) 6 e := by
  have rec1 : ∀ k, bs.length < k → k ≤ 2 → ShortBy (bs.length + 1) 6 (.truncated 1 k) :=
    fun k hk hk2 => ⟨1, k, rfl, by omega, by omega, by omega, by omega⟩
  have hmov : isMovOpcode b = true := by
    by_contra hn
    simp [decode, (classify_unrecognized b).2 (by simpa using hn)] at h
  refine ⟨hmov, ?_⟩
  rw [decode] at h
  cases hc : classify b with
  | accLoad =>
    simp only [hc, decodeAcc, map_error, take16_error] at h
    exact h.2 ▸ rec1 2 h.1 (by omega)
  | accStore =>
    simp only [hc, decodeAcc, map_error, take16_error] at h
    exact h.2 ▸ rec1 2 h.1 (by omega)
  | immReg8 =>
    simp only [hc, decodeImmReg8, map_error, take8_error] at h
    exact h.2 ▸ rec1 1 (by simp [h.1]) (by omega)
  | immReg16 =>
    simp only [hc, decodeImmReg16, map_error, take16_error] at h
    exact h.2 ▸ rec1 2 h.1 (by omega)
  | immRm8 =>
    simp only [hc, decodeImmRm8] at h
    split at h
    · rename_i hm
      cases h
      exact (takeModRm_error _ _ hm).mono _ _ _ _ (by omega)
    · rename_i hm
      simp only [map_error, take8_error] at h
      exact h.2 ▸ takeModRm_then_short _ _ _ _ 1 hm (by simp [h.1]) (by omega)
  | immRm16 =>
    simp only [hc, decodeImmRm16] at h
    split at h
    · rename_i hm
      cases h
      exact (takeModRm_error _ _ hm).mono _ _ _ _ (by omega)
    · rename_i hm
      simp only [map_error, take16_error] at h
      exact h.2 ▸ takeModRm_then_short _ _ _ _ 2 hm h.1 (by omega)
  | rmReg d w =>
    simp only [hc, decodeRmReg, map_error] at h
    exact (takeModRm_error _ _ h).mono _ _ _ _ (by omega)
  | unrecognized => simp [hc] at h

end Sys2Proof
end

