-- ==== Sys2Proof/Laws/State.lean ====
section
/-! SUPPORT. What each shared update of State does to each field, one lemma a field. -/

namespace Sys2Proof.Machine

/-! ## emit -/

@[simp] theorem emit_buf (r : Record) (s : State) : (emit r s).buf = s.buf := rfl
@[simp] theorem emit_len (r : Record) (s : State) : (emit r s).len = s.len := rfl
@[simp] theorem emit_cursor (r : Record) (s : State) : (emit r s).cursor = s.cursor := rfl
@[simp] theorem emit_status (r : Record) (s : State) : (emit r s).status = s.status := rfl
@[simp] theorem emit_out (r : Record) (s : State) : (emit r s).out = s.out ++ [r] := rfl

/-! ## advance -/

@[simp] theorem advance_buf (cur : Nat) (s : State) : (advance cur s).buf = s.buf := rfl
@[simp] theorem advance_len (cur : Nat) (s : State) : (advance cur s).len = s.len := rfl
@[simp] theorem advance_cursor (cur : Nat) (s : State) : (advance cur s).cursor = cur := rfl
@[simp] theorem advance_status (cur : Nat) (s : State) :
    (advance cur s).status = statusAt cur s.len := rfl
@[simp] theorem advance_out (cur : Nat) (s : State) : (advance cur s).out = s.out := rfl

/-! ## takeEvent -/

@[simp] theorem takeEvent_buf (e : Event) (cur : Nat) (s : State) :
    (takeEvent e cur s).buf = s.buf := by cases e <;> rfl
@[simp] theorem takeEvent_len (e : Event) (cur : Nat) (s : State) :
    (takeEvent e cur s).len = s.len := by cases e <;> rfl
@[simp] theorem takeEvent_cursor (e : Event) (cur : Nat) (s : State) :
    (takeEvent e cur s).cursor = cur := by cases e <;> rfl
@[simp] theorem takeEvent_out (e : Event) (cur : Nat) (s : State) :
    (takeEvent e cur s).out = s.out ++ [eventRecord e] := by cases e <;> rfl
@[simp] theorem takeEvent_unrecognized_status (b : Byte) (cur : Nat) (s : State) :
    (takeEvent (.unrecognized b) cur s).status = statusAt cur s.len := rfl
@[simp] theorem takeEvent_truncated_status (cur : Nat) (s : State) :
    (takeEvent .truncated cur s).status = .trunc := rfl

/-! ## placeAtCursor -/

@[simp] theorem placeAtCursor_buf (s : State) (bs : List Byte) :
    (placeAtCursor s bs).buf = Memory.writeBytes s.buf s.cursor bs := rfl
@[simp] theorem placeAtCursor_len (s : State) (bs : List Byte) :
    (placeAtCursor s bs).len = max s.len (s.cursor + bs.length) := rfl
@[simp] theorem placeAtCursor_cursor (s : State) (bs : List Byte) :
    (placeAtCursor s bs).cursor = s.cursor := rfl
@[simp] theorem placeAtCursor_status (s : State) (bs : List Byte) :
    (placeAtCursor s bs).status = .run := rfl
@[simp] theorem placeAtCursor_out (s : State) (bs : List Byte) :
    (placeAtCursor s bs).out = s.out := rfl

/-! ## resetWith -/

@[simp] theorem resetWith_buf (m : Memory) (n : Nat) : (resetWith m n).buf = m := rfl
@[simp] theorem resetWith_len (m : Memory) (n : Nat) : (resetWith m n).len = n := rfl
@[simp] theorem resetWith_cursor (m : Memory) (n : Nat) : (resetWith m n).cursor = 0 := rfl
@[simp] theorem resetWith_status (m : Memory) (n : Nat) :
    (resetWith m n).status = statusAt 0 n := rfl
@[simp] theorem resetWith_out (m : Memory) (n : Nat) :
    (resetWith m n).out = [.header, .blank] := rfl

/-- The host's `State.reset` is the reset of R160 with nothing supplied (log entry 1). -/
theorem reset_eq_resetWith : State.reset = resetWith [] 0 := rfl

/-! ## STATUS -/

/-- A step that ends without a truncation never leaves STATUS at TRUNC. -/
theorem statusAt_ne_trunc (cur len : Nat) : statusAt cur len ≠ .trunc := by
  unfold statusAt
  split <;> simp

theorem statusAt_eq_done (cur len : Nat) : statusAt cur len = .done ↔ cur = len := by
  unfold statusAt
  split <;> simp_all

theorem statusAt_eq_run (cur len : Nat) : statusAt cur len = .run ↔ cur ≠ len := by
  unfold statusAt
  split <;> simp_all

/-- The reserved STATUS code 3 is no state's code (R24). -/
theorem statusCode_ne_reserved (st : Status) : statusCode st ≠ 3 := by cases st <;> decide

end Sys2Proof.Machine
end

