-- ==== Sys2Proof/Laws/Memory.lean ====
section
/-! SUPPORT. The laws of the buffer: a read after a write, and the canonical form. -/

namespace Sys2Proof.Machine

theorem read_write_same (m : Memory) (a : Nat) (b : Byte) : (m.write a b).read a = some b := by
  induction m with
  | nil => simp [Memory.write, Memory.read]
  | cons c rest ih =>
    obtain ⟨k, v⟩ := c
    simp only [Memory.write]
    split_ifs with h1 h2
    · simp [Memory.read]
    · simp [Memory.read]
    · simp [Memory.read, ih, Ne.symm h2]

theorem read_write_other (m : Memory) (a a' : Nat) (b : Byte) (h : a' ≠ a) :
    (m.write a b).read a' = m.read a' := by
  induction m with
  | nil => simp [Memory.write, Memory.read, Ne.symm h]
  | cons c rest ih =>
    obtain ⟨k, v⟩ := c
    simp only [Memory.write]
    split_ifs with h1 h2
    · simp [Memory.read, Ne.symm h]
    · subst h2
      simp [Memory.read, Ne.symm h]
    · simp [Memory.read, ih]

/-- The entries of a written buffer are the written one and old ones. -/
theorem mem_write (m : Memory) (a : Nat) (b : Byte) (c : Host.Cell) (h : c ∈ m.write a b) :
    c = (a, b) ∨ c ∈ m := by
  induction m with
  | nil => simpa [Memory.write] using h
  | cons d rest ih =>
    obtain ⟨k, v⟩ := d
    simp only [Memory.write] at h
    split_ifs at h with h1 h2
    · simpa using h
    · rcases List.mem_cons.mp h with h | h
      · exact .inl h
      · exact .inr (List.mem_cons_of_mem _ h)
    · rcases List.mem_cons.mp h with h | h
      · exact .inr (by simp [h])
      · exact (ih h).imp id (List.mem_cons_of_mem _)

/-- A write keeps the canonical form. -/
theorem write_wf (m : Memory) (a : Nat) (b : Byte) (h : m.wf) : (m.write a b).wf := by
  induction m with
  | nil => simp [Memory.write, Memory.wf]
  | cons c rest ih =>
    obtain ⟨k, v⟩ := c
    obtain ⟨hk, hrest⟩ := List.pairwise_cons.mp h
    simp only [Memory.write]
    split_ifs with h1 h2
    · refine List.pairwise_cons.mpr ⟨fun d hd => ?_, h⟩
      rcases List.mem_cons.mp hd with rfl | hd
      · exact h1
      · exact lt_trans h1 (hk d hd)
    · subst h2
      exact List.pairwise_cons.mpr ⟨hk, hrest⟩
    · refine List.pairwise_cons.mpr ⟨fun d hd => ?_, ih hrest⟩
      rcases mem_write rest a b d hd with rfl | hd
      · simp only
        omega
      · exact hk d hd

theorem writeBytes_wf (m : Memory) (a : Nat) (bs : List Byte) (h : m.wf) :
    (m.writeBytes a bs).wf := by
  induction bs generalizing m a with
  | nil => exact h
  | cons b bs ih => exact ih _ _ (write_wf m a b h)

/-- The host's placing of an instruction keeps the canonical form. -/
theorem placeAtCursor_wf (s : State) (bs : List Byte) (h : s.buf.wf) :
    (placeAtCursor s bs).buf.wf := writeBytes_wf _ _ _ h

/-- The buffer of the reset state has the canonical form. -/
theorem reset_buf_wf : State.reset.buf.wf := List.Pairwise.nil

/-- The buffer of a loaded input has the canonical form. -/
theorem resetBytes_wf (bs : List Byte) : (resetBytes bs).buf.wf :=
  writeBytes_wf _ _ _ List.Pairwise.nil

/-- A byte below the written ones reads as before. -/
theorem read_writeBytes_below (m : Memory) (a a' : Nat) (bs : List Byte) (h : a' < a) :
    (m.writeBytes a bs).read a' = m.read a' := by
  induction bs generalizing m a with
  | nil => rfl
  | cons b bs ih =>
    rw [Memory.writeBytes, ih _ _ (by omega), read_write_other _ _ _ _ (by omega)]

/-- A byte above the written ones reads as before. -/
theorem read_writeBytes_above (m : Memory) (a a' : Nat) (bs : List Byte) (h : a + bs.length ≤ a') :
    (m.writeBytes a bs).read a' = m.read a' := by
  induction bs generalizing m a with
  | nil => rfl
  | cons b bs ih =>
    simp only [List.length_cons] at h
    rw [Memory.writeBytes, ih _ _ (by omega), read_write_other _ _ _ _ (by omega)]

/-- A written byte reads back. -/
theorem read_writeBytes_at (m : Memory) (a k : Nat) (bs : List Byte) (h : k < bs.length) :
    (m.writeBytes a bs).read (a + k) = bs[k]? := by
  induction bs generalizing m a k with
  | nil => simp at h
  | cons b bs ih =>
    cases k with
    | zero =>
      rw [Memory.writeBytes, read_writeBytes_below _ _ _ _ (by omega)]
      simp [read_write_same]
    | succ k =>
      have := ih (m.write a b) (a + 1) k (by simpa using h)
      rw [Memory.writeBytes, show a + (k + 1) = a + 1 + k by omega, this]
      simp

/-- The entries of a buffer after a run of writes lie in the run or are old ones. -/
theorem mem_writeBytes (m : Memory) (a : Nat) (bs : List Byte) (c : Host.Cell)
    (h : c ∈ m.writeBytes a bs) : (a ≤ c.1 ∧ c.1 < a + bs.length) ∨ c ∈ m := by
  induction bs generalizing m a with
  | nil => exact .inr h
  | cons b bs ih =>
    rcases ih _ _ h with h | h
    · simp only [List.length_cons]
      omega
    · rcases mem_write _ _ _ _ h with rfl | h
      · simp
      · exact .inr h

/-- An index that no entry of a buffer names reads as no byte. -/
theorem read_eq_none (m : Memory) (a : Nat) (h : ∀ c ∈ m, c.1 ≠ a) : m.read a = none := by
  induction m with
  | nil => rfl
  | cons c rest ih =>
    obtain ⟨k, v⟩ := c
    simp only [Memory.read, h (k, v) (by simp), if_false]
    exact ih fun c hc => h c (List.mem_cons_of_mem _ hc)

/-- Buffers in canonical form are determined by what they read as. -/
theorem wf_ext (m m' : Memory) (h : m.wf) (h' : m'.wf) (hr : ∀ a, m.read a = m'.read a) :
    m = m' := by
  induction m generalizing m' with
  | nil =>
    cases m' with
    | nil => rfl
    | cons c rest => simpa [Memory.read] using hr c.1
  | cons c rest ih =>
    obtain ⟨k, v⟩ := c
    obtain ⟨hk, hrest⟩ := List.pairwise_cons.mp h
    cases m' with
    | nil => simpa [Memory.read] using hr k
    | cons c' rest' =>
      obtain ⟨k', v'⟩ := c'
      obtain ⟨hk', hrest'⟩ := List.pairwise_cons.mp h'
      have below : ∀ (r : Memory) (j a : Nat), (∀ c ∈ r, j < c.1) → a ≤ j → r.read a = none :=
        fun r j a hr ha => read_eq_none r a fun c hc => by have := hr c hc; omega
      have hkk : k = k' := by
        by_contra hne
        rcases Nat.lt_or_gt_of_ne hne with hlt | hlt
        · have := hr k
          rw [Memory.read, if_pos rfl, Memory.read, if_neg (by omega),
            below rest' k' k hk' (by omega)] at this
          simp at this
        · have := hr k'
          rw [Memory.read, if_neg (by omega), below rest k k' hk (by omega), Memory.read,
            if_pos rfl] at this
          simp at this
      subst hkk
      have hv : v = v' := by simpa [Memory.read] using hr k
      subst hv
      congr 1
      refine ih rest' hrest hrest' fun a => ?_
      rcases Nat.lt_or_ge k a with ha | ha
      · simpa [Memory.read, Nat.ne_of_lt ha] using hr a
      · rw [below rest k a hk ha, below rest' k a hk' ha]

end Sys2Proof.Machine
end

