-- ==== Sys2Proof/Laws/Ops.lean ====
section
/-! SUPPORT. One lemma for everything each shared operation can do. -/

namespace Sys2Proof.Machine

/-! ## The end-of-buffer checks -/

/-- Fields that are all there are all consumed. -/
theorem consume_fits (fields : List Nat) (len cur : Nat) (h : cur + fields.sum ≤ len) :
    consume fields len cur = .ok (cur + fields.sum) := by
  induction fields generalizing cur with
  | nil => simp [consume]
  | cons k ks ih =>
    simp only [List.sum_cons] at h ⊢
    rw [consume, if_neg (by omega), ih _ (by omega), Nat.add_assoc]

/-- What the checks can answer: everything consumed within LEN, or the working cursor at a check that
failed, not before the start and not past LEN. -/
theorem consume_cases (fields : List Nat) (len cur : Nat) (h : cur ≤ len) :
    (consume fields len cur = .ok (cur + fields.sum) ∧ cur + fields.sum ≤ len) ∨
      ∃ c, consume fields len cur = .error c ∧ cur ≤ c ∧ c ≤ len ∧ len < cur + fields.sum := by
  induction fields generalizing cur with
  | nil => exact .inl ⟨rfl, by simpa using h⟩
  | cons k ks ih =>
    by_cases hk : len - cur < k
    · exact .inr ⟨cur, by rw [consume, if_pos hk], le_refl _, h, by simp; omega⟩
    · rcases ih (cur + k) (by omega) with ⟨h1, h2⟩ | ⟨c, h1, h2, h3, h4⟩
      · exact .inl ⟨by rw [consume, if_neg hk, h1]; simp [Nat.add_assoc], by simp; omega⟩
      · exact .inr ⟨c, by rw [consume, if_neg hk, h1], by omega, h3, by simp; omega⟩

/-- From any working cursor, a failed check does not lie before it. -/
theorem consume_error_ge (fields : List Nat) (len cur c : Nat)
    (h : consume fields len cur = .error c) : cur ≤ c := by
  induction fields generalizing cur with
  | nil => simp [consume] at h
  | cons k ks ih =>
    rw [consume] at h
    split at h
    · cases h
      exact le_refl _
    · exact le_trans (Nat.le_add_right _ _) (ih _ h)

theorem consume_ok_eq (fields : List Nat) (len cur c : Nat)
    (h : consume fields len cur = .ok c) : c = cur + fields.sum := by
  induction fields generalizing cur with
  | nil => cases h; simp
  | cons k ks ih =>
    rw [consume] at h
    split at h
    · cases h
    · rw [ih _ h, List.sum_cons, Nat.add_assoc]

/-! ## The body of an instruction -/

/-- A body whose fields are all there appends its record and moves past them. -/
theorem runBody_fits (fields : List Nat) (r : Record) (s : State)
    (h : s.cursor + 1 + fields.sum ≤ s.len) :
    runBody fields r s = .next (advance (s.cursor + 1 + fields.sum) (emit r s)) := by
  rw [runBody, consume_fits _ _ _ h]

/-- Everything a body can do. -/
theorem runBody_cases (fields : List Nat) (r : Record) (s : State) :
    (runBody fields r s = .next (advance (s.cursor + 1 + fields.sum) (emit r s))) ∨
      ∃ c, s.cursor + 1 ≤ c ∧ runBody fields r s = .next (takeEvent .truncated c s) := by
  unfold runBody
  cases h : consume fields s.len (s.cursor + 1) with
  | ok c => exact .inl (by rw [consume_ok_eq _ _ _ _ h])
  | error c => exact .inr ⟨c, consume_error_ge _ _ _ _ h, rfl⟩

/-! ## The meanings as bodies -/

theorem execMovRm8R8_eq (rm : RmForm) (reg : Index) (s : State) :
    execMovRm8R8 rm reg s =
      runBody [1, dispBytes rm] (.mov (resolveRm .w8 rm) (.reg reg .w8)) s := rfl

theorem execMovRm16R16_eq (rm : RmForm) (reg : Index) (s : State) :
    execMovRm16R16 rm reg s =
      runBody [1, dispBytes rm] (.mov (resolveRm .w16 rm) (.reg reg .w16)) s := rfl

theorem execMovR8Rm8_eq (reg : Index) (rm : RmForm) (s : State) :
    execMovR8Rm8 reg rm s =
      runBody [1, dispBytes rm] (.mov (.reg reg .w8) (resolveRm .w8 rm)) s := rfl

theorem execMovR16Rm16_eq (reg : Index) (rm : RmForm) (s : State) :
    execMovR16Rm16 reg rm s =
      runBody [1, dispBytes rm] (.mov (.reg reg .w16) (resolveRm .w16 rm)) s := rfl

end Sys2Proof.Machine
end

