-- ==== Sys2Proof/Laws/Fetch.lean ====
section
/-! SUPPORT. What fetching reads, and what a step does in each of its cases. -/

namespace Sys2Proof.Machine

theorem memRead8_below (s : State) (a : Nat) (h : a < s.len) : memRead8 s a = s.buf.read a :=
  if_pos h

theorem memRead8_some (s : State) (a : Nat) (b : Byte) (h : memRead8 s a = some b) :
    a < s.len ∧ s.buf.read a = some b := by
  unfold memRead8 at h
  split at h
  · exact ⟨‹_›, h⟩
  · cases h

/-- A fetched byte is the buffer's byte at its place. -/
theorem readRun_getElem (s : State) (n a k : Nat) (b : Byte) (h : (readRun s n a)[k]? = some b) :
    k < n ∧ memRead8 s (a + k) = some b := by
  induction n generalizing a k with
  | zero => simp [readRun] at h
  | succ n ih =>
    rw [readRun] at h
    cases hb : memRead8 s a with
    | none => simp [hb] at h
    | some v =>
      rw [hb] at h
      cases k with
      | zero =>
        simp at h
        exact ⟨by omega, by simpa [h] using hb⟩
      | succ k =>
        obtain ⟨h1, h2⟩ := ih (a + 1) k (by simpa using h)
        exact ⟨by omega, by rwa [show a + (k + 1) = a + 1 + k by omega]⟩

/-- A run of readable bytes is fetched, whatever follows. -/
theorem readRun_append (s : State) (n a : Nat) (bs : List Byte) (hn : bs.length ≤ n)
    (h : ∀ k, k < bs.length → memRead8 s (a + k) = bs[k]?) :
    readRun s n a = bs ++ readRun s (n - bs.length) (a + bs.length) := by
  induction bs generalizing n a with
  | nil => simp
  | cons b bs ih =>
    cases n with
    | zero => simp at hn
    | succ n =>
      have h0 : memRead8 s a = some b := by simpa using h 0 (by simp)
      rw [readRun, h0]
      simp only [List.length_cons, List.cons_append, List.cons.injEq, true_and]
      rw [ih n (a + 1) (by simpa using hn) fun k hk => by
        simpa [show a + 1 + k = a + (k + 1) by omega] using h (k + 1) (by simpa using hk)]
      rw [show n + 1 - (bs.length + 1) = n - bs.length by omega,
        show a + 1 + bs.length = a + (bs.length + 1) by omega]

/-- The bytes fetched all lie below LEN. -/
theorem readRun_length_le (s : State) (n a : Nat) (h : a ≤ s.len) :
    a + (readRun s n a).length ≤ s.len := by
  induction n generalizing a with
  | zero => simpa [readRun] using h
  | succ n ih =>
    rw [readRun]
    cases hb : memRead8 s a with
    | none => simpa using h
    | some v =>
      have := ih (a + 1) (memRead8_some s a v hb).1
      simp only [List.length_cons]
      omega

/-- In a whole buffer, as many bytes are fetched as lie below LEN. -/
theorem readRun_length (s : State) (h : ∀ a < s.len, (s.buf.read a).isSome) (n a : Nat) :
    (readRun s n a).length = min n (s.len - a) := by
  induction n generalizing a with
  | zero => simp [readRun]
  | succ n ih =>
    rw [readRun]
    by_cases ha : a < s.len
    · obtain ⟨b, hb⟩ := Option.isSome_iff_exists.1 (h a ha)
      rw [memRead8_below s a ha, hb]
      simp only [List.length_cons, ih]
      omega
    · rw [memRead8, if_neg ha]
      simp only [List.length_nil]
      omega

/-- The first byte fetched is the byte at CURSOR. -/
theorem fetchBytes_cons (s : State) (b : Byte) :
    (∃ rest, fetchBytes s = b :: rest) ↔ memRead8 s s.cursor = some b := by
  unfold fetchBytes maxInstrLength
  rw [readRun]
  cases memRead8 s s.cursor <;> simp

theorem fetchBytes_length_le (s : State) : (fetchBytes s).length ≤ maxInstrLength := by
  suffices h : ∀ n a, (readRun s n a).length ≤ n from h _ _
  intro n
  induction n with
  | zero => simp [readRun]
  | succ n ih =>
    intro a
    rw [readRun]
    split
    · simpa using ih _
    · simp

/-! ## The cases of a step -/

/-- Everything a step that answers a next state can be: the meaning of the decoded instruction, or the
truncation event. -/
theorem step_next_cases (s t : State) (h : step s = .next t) :
    s.status = .run ∧
      ((∃ i rest, decode (fetchBytes s) = .ok (i, rest) ∧ exec i s = .next t) ∨
        ∃ c k, decode (fetchBytes s) = .error (.truncated c k) ∧ s.len - (s.cursor + c) < k ∧
          t = takeEvent .truncated (s.cursor + c) s) := by
  unfold step at h
  cases hs : s.status with
  | done => simp [hs] at h
  | trunc => simp [hs] at h
  | run =>
    rw [hs] at h
    refine ⟨rfl, ?_⟩
    cases hd : decode (fetchBytes s) with
    | ok p =>
      obtain ⟨i, rest⟩ := p
      rw [hd] at h
      exact .inl ⟨i, rest, rfl, h⟩
    | error e =>
      rw [hd] at h
      cases e with
      | noOpcode =>
        simp only [rejectStep] at h
        split at h <;> cases h
      | truncated c k =>
        simp only [rejectStep] at h
        split at h
        · rename_i hlt
          refine .inr ⟨c, k, rfl, hlt, ?_⟩
          cases h
          rfl
        · cases h

end Sys2Proof.Machine
end

