-- ==== Sys2Proof/Laws/PerInstr.lean ====
section
/-! SUPPORT. The family EncodedLength: an instruction's encoding has the length that 30_encoding.md R76
gives its class. -/

namespace Sys2Proof

/-- The bytes of a form after its ModRM byte are D bytes (R78). -/
theorem encodeRm_length (reg : Index) (rm : RmForm) :
    (encodeRm reg rm).length = 1 + dispBytes rm := by
  cases rm <;> rfl

namespace Laws.EncodedLength

/-- The encoding is as long as the instruction, and 1 to 6 bytes long. -/
def Statement (i : Instr) : Prop :=
  (encode i).length = instrLength i ∧ 1 ≤ instrLength i ∧ instrLength i ≤ maxInstrLength

theorem movRm8R8 (rm : RmForm) (reg : Index) : Statement (.movRm8R8 rm reg) := by
  cases rm <;> exact ⟨rfl, Nat.le_of_ble_eq_true rfl, Nat.le_of_ble_eq_true rfl⟩

theorem movRm16R16 (rm : RmForm) (reg : Index) : Statement (.movRm16R16 rm reg) := by
  cases rm <;> exact ⟨rfl, Nat.le_of_ble_eq_true rfl, Nat.le_of_ble_eq_true rfl⟩

theorem movR8Rm8 (reg : Index) (rm : RmForm) : Statement (.movR8Rm8 reg rm) := by
  cases rm <;> exact ⟨rfl, Nat.le_of_ble_eq_true rfl, Nat.le_of_ble_eq_true rfl⟩

theorem movR16Rm16 (reg : Index) (rm : RmForm) : Statement (.movR16Rm16 reg rm) := by
  cases rm <;> exact ⟨rfl, Nat.le_of_ble_eq_true rfl, Nat.le_of_ble_eq_true rfl⟩

theorem movAxAddr (a : Word) : Statement (.movAxAddr a) :=
  ⟨rfl, Nat.le_of_ble_eq_true rfl, Nat.le_of_ble_eq_true rfl⟩

theorem movAddrAx (a : Word) : Statement (.movAddrAx a) :=
  ⟨rfl, Nat.le_of_ble_eq_true rfl, Nat.le_of_ble_eq_true rfl⟩

theorem movR8Imm8 (r : Index) (i : Byte) : Statement (.movR8Imm8 r i) :=
  ⟨rfl, Nat.le_of_ble_eq_true rfl, Nat.le_of_ble_eq_true rfl⟩

theorem movR16Imm16 (r : Index) (i : Word) : Statement (.movR16Imm16 r i) :=
  ⟨rfl, Nat.le_of_ble_eq_true rfl, Nat.le_of_ble_eq_true rfl⟩

theorem movRm8Imm8 (rm : RmForm) (reg : Index) (i : Byte) : Statement (.movRm8Imm8 rm reg i) := by
  cases rm <;> exact ⟨rfl, Nat.le_of_ble_eq_true rfl, Nat.le_of_ble_eq_true rfl⟩

theorem movRm16Imm16 (rm : RmForm) (reg : Index) (i : Word) :
    Statement (.movRm16Imm16 rm reg i) := by
  cases rm <;> exact ⟨rfl, Nat.le_of_ble_eq_true rfl, Nat.le_of_ble_eq_true rfl⟩

theorem unrecognized (b : Byte) : Statement (.unrecognized b) :=
  ⟨rfl, Nat.le_of_ble_eq_true rfl, Nat.le_of_ble_eq_true rfl⟩

end Laws.EncodedLength

end Sys2Proof
end

