-- ==== Sys2Proof/Laws/Run.lean ====
section
/-! SUPPORT. Runs taken apart at either end, and the host's run of the core. -/

namespace Sys2Proof.Machine

@[simp] theorem runSteps_zero (s : State) : runSteps 0 s = .next s := rfl

theorem runSteps_succ (k : Nat) (s t : State) :
    runSteps (k + 1) s = .next t ↔ ∃ u, step s = .next u ∧ runSteps k u = .next t := by
  rw [runSteps]
  cases step s <;> simp

/-- The last step of a run. -/
theorem runSteps_last (k : Nat) (s u : State) :
    runSteps (k + 1) s = .next u ↔ ∃ t, runSteps k s = .next t ∧ step t = .next u := by
  induction k generalizing s with
  | zero => simp [runSteps_succ]
  | succ k ih =>
    rw [runSteps_succ]
    constructor
    · rintro ⟨v, h1, h2⟩
      obtain ⟨t, h3, h4⟩ := (ih v).1 h2
      exact ⟨t, (runSteps_succ _ _ _).2 ⟨v, h1, h3⟩, h4⟩
    · rintro ⟨t, h1, h2⟩
      obtain ⟨v, h3, h4⟩ := (runSteps_succ _ _ _).1 h1
      exact ⟨v, h3, (ih v).2 ⟨t, h4, h2⟩⟩

/-- One step of the host's run, for any machine. -/
theorem core_run_succ (M : Host.Core) (k : Nat) (s : M.State) :
    M.run (k + 1) s =
      (match M.step s with
        | .next t => M.run k t
        | .fault f => .fault f
        | .refused r => .refused r) := by
  cases h : M.step s <;> simp only [Host.Core.run, h]

/-- The host's run of the core is `runSteps`. -/
theorem core_run_eq (k : Nat) (s : State) : Host.Core.run core k s = runSteps k s := by
  induction k generalizing s with
  | zero => rfl
  | succ k ih =>
    refine (core_run_succ core k s).trans ?_
    rw [runSteps]
    cases hs : core.step s with
    | next t =>
      rw [show step s = .next t from hs]
      exact ih t
    | fault f =>
      rw [show step s = .fault f from hs]
      rfl
    | refused r =>
      rw [show step s = .refused r from hs]
      rfl

/-! ## The records of a step -/

/-- A step's truncation, from the bytes at CURSOR. -/
theorem step_truncated (s : State) (c k : Nat) (hr : s.status = .run)
    (hd : decode (fetchBytes s) = .error (.truncated c k)) (h : s.len - (s.cursor + c) < k) :
    step s = .next (takeEvent .truncated (s.cursor + c) s) := by
  simp [step, hr, hd, rejectStep, h]

/-- No instruction's record is the truncation diagnostic. -/
theorem recordOf_ne_diagTruncated (i : Instr) : recordOf i ≠ .diagTruncated := by
  cases i <;> simp [recordOf]

/-- Every meaning is the shared body over its fields and its record. -/
theorem exec_eq_runBody (i : Instr) (s : State) :
    exec i s = runBody (fieldBytes i) (recordOf i) s := by
  cases i <;> rfl

/-- The records of well-formed instructions are legal. -/
theorem recordOf_legal (i : Instr) (h : i.wf = true) : recordLegal (recordOf i) = true := by
  have hbyte : ∀ v : Byte, -128 ≤ v.toInt ∧ v.toInt ≤ 127 := by decide
  have hword : ∀ v : Word, -32768 ≤ v.toInt ∧ v.toInt ≤ 32767 := by
    intro v
    have := BitVec.toInt_lt (x := v)
    have := BitVec.le_toInt (x := v)
    omega
  cases i with
  | movRm8R8 rm reg =>
    cases rm <;> simp [recordOf, recordLegal, movLegal, resolveRm, isRm, isReg]
  | movRm16R16 rm reg =>
    cases rm <;> simp [recordOf, recordLegal, movLegal, resolveRm, isRm, isReg]
  | movR8Rm8 reg rm => cases rm <;> simp [recordOf, recordLegal, movLegal, resolveRm, isRm]
  | movR16Rm16 reg rm => cases rm <;> simp [recordOf, recordLegal, movLegal, resolveRm, isRm]
  | movAxAddr a => simp [recordOf, recordLegal, movLegal, isAbs]
  | movAddrAx a => simp [recordOf, recordLegal, movLegal]
  | movR8Imm8 r v => simp [recordOf, recordLegal, movLegal, isImm, immInRange, hbyte v]
  | movR16Imm16 r v => simp [recordOf, recordLegal, movLegal, isImm, immInRange, hword v]
  | movRm8Imm8 rm reg v =>
    cases rm <;> simp [recordOf, recordLegal, isRm, resolveRm, isImm, immInRange, hbyte v]
  | movRm16Imm16 rm reg v =>
    cases rm <;> simp [recordOf, recordLegal, isRm, resolveRm, isImm, immInRange, hword v]
  | unrecognized b => simpa [recordOf, recordLegal, Instr.wf] using h

end Sys2Proof.Machine
end

