-- ==== Sys2Proof/Tests/Slice0.lean ====
section
/-! SUPPORT. The model's own tests. Expected results are the spec's: the encodings of
`30_encoding.md` and `40`-`43`, and the vectors of `95_test_vectors.md` (named in each comment).
The second half holds, for each statement with hypotheses, states and operands that meet them. -/

namespace Sys2Proof.Tests

open Sys2Proof Sys2Proof.Machine

/-! ## Helpers -/

/-- The next state of an outcome. -/
def nextOf : Host.Outcome State Fault Refusal → Option State
  | .next s => some s
  | .fault _ => none
  | .refused _ => none

/-- The fault of an outcome. -/
def faultOf : Host.Outcome State Fault Refusal → Option Fault
  | .fault f => some f
  | .next _ => none
  | .refused _ => none

/-- The refusal of an outcome. -/
def refusalOf : Host.Outcome State Fault Refusal → Option Refusal
  | .refused r => some r
  | .next _ => none
  | .fault _ => none

/-- The first step on an input: CURSOR, STATUS and the text of the appended record. -/
def firstStep (bs : List Byte) : Option (Nat × Status × String) :=
  (nextOf (step (resetBytes bs))).map fun s =>
    (s.cursor, s.status, renderText (s.out.drop 2))

/-! ## WellFormed: an ill-formed term for each check -/

theorem test_wf_base_110_refused : RmForm.wf (.base 0b110) = false := by decide

theorem test_wf_base_111 : RmForm.wf (.base 0b111) = true := by decide

theorem test_wf_movRm8R8_refused : (Instr.movRm8R8 (.base 6) 0).wf = false := by decide

theorem test_wf_movRm16R16_refused : (Instr.movRm16R16 (.base 6) 0).wf = false := by decide

theorem test_wf_movR8Rm8_refused : (Instr.movR8Rm8 0 (.base 6)).wf = false := by decide

theorem test_wf_movR16Rm16_refused : (Instr.movR16Rm16 0 (.base 6)).wf = false := by decide

theorem test_wf_movRm8Imm8_refused : (Instr.movRm8Imm8 (.base 6) 0 1).wf = false := by decide

theorem test_wf_movRm16Imm16_refused : (Instr.movRm16Imm16 (.base 6) 0 1).wf = false := by decide

theorem test_wf_unrecognized_refused : (Instr.unrecognized 0x88).wf = false := by decide

/-- 232 bytes are unrecognized (R72). -/
theorem test_unrecognized_count :
    ((List.range 256).filter fun n => !isMovOpcode (BitVec.ofNat 8 n)).length = 232 := by
  decide +kernel

/-! ## Decoding: words written out from the spec's encodings -/

/-- `88 C3`, ModRM 11 000 011 (R64). -/
theorem test_decode_88 :
    decode [0b10001000, 0b11000011] = .ok (.movRm8R8 (.register 3) 0, []) := by decide

/-- `89 5E FE`, ModRM 01 011 110 (R131). -/
theorem test_decode_89 :
    decode [0b10001001, 0b01011110, 0xFE] = .ok (.movRm16R16 (.baseDisp8 6 0xFE) 3, []) := by
  decide

/-- `8A 07`, ModRM 00 000 111 (R132). -/
theorem test_decode_8A :
    decode [0b10001010, 0b00000111] = .ok (.movR8Rm8 0 (.base 7), []) := by decide

/-- `8B 97 10 27`, ModRM 10 010 111 (R133). -/
theorem test_decode_8B : decode [0b10001011, 0b10010111, 0x10, 0x27] =
    .ok (.movR16Rm16 2 (.baseDisp16 7 0x2710), []) := by decide

/-- `8B 36 00 80`, ModRM 00 110 110: the direct address (R133). -/
theorem test_decode_direct_address : decode [0b10001011, 0b00110110, 0x00, 0x80] =
    .ok (.movR16Rm16 6 (.directAddress 0x8000), []) := by decide

/-- `A1 34 12` (R61, R100). -/
theorem test_decode_A1 :
    decode [0b10100001, 0x34, 0x12] = .ok (.movAxAddr 0x1234, []) := by decide

/-- `A3 00 80` (R61, R101). -/
theorem test_decode_A3 :
    decode [0b10100011, 0x00, 0x80] = .ok (.movAddrAx 0x8000, []) := by decide

/-- `B4 80` (R62, R110). -/
theorem test_decode_B4 : decode [0b10110100, 0x80] = .ok (.movR8Imm8 4 0x80, []) := by decide

/-- `BF FF 7F` (R62, R111). -/
theorem test_decode_BF :
    decode [0b10111111, 0xFF, 0x7F] = .ok (.movR16Imm16 7 0x7FFF, []) := by decide

/-- `C6 38 01`, ModRM 00 111 000 (R63, R74). -/
theorem test_decode_C6 :
    decode [0b11000110, 0b00111000, 0x01] = .ok (.movRm8Imm8 (.base 0) 7 0x01, []) := by decide

/-- `C7 86 00 80 01 00`, ModRM 10 000 110: the longest form (R63). -/
theorem test_decode_C7 : decode [0b11000111, 0b10000110, 0x00, 0x80, 0x01, 0x00] =
    .ok (.movRm16Imm16 (.baseDisp16 6 0x8000) 0 0x0001, []) := by decide

/-- `8C C0`: a segment MOV of a real x86 is one unrecognized byte (R72). -/
theorem test_decode_8C : decode [0x8C, 0xC0] = .ok (.unrecognized 0x8C, [0xC0]) := by decide

/-- Every ModRM-less neighbour of the recognized bytes is unrecognized (R70). -/
theorem test_decode_neighbours :
    [0x87, 0x8C, 0xA0, 0xA2, 0xA4, 0xAF, 0xC0, 0xC5, 0xC8].map (fun b => classify b) =
      List.replicate 9 OpClass.unrecognized := by decide

/-- A list that ends inside an instruction is rejected by name, with the bytes consumed (R143). -/
theorem test_decode_truncations :
    decode [] = .error .noOpcode ∧ decode [0xA1, 0x34] = .error (.truncated 1 2) ∧
      decode [0xC7, 0x06] = .error (.truncated 2 2) ∧
      decode [0xC6, 0x46, 0xFE] = .error (.truncated 3 1) := by decide

theorem test_encode_longest : encode (.movRm16Imm16 (.directAddress 0x1234) 0 0x5678) =
    [0xC7, 0x06, 0x34, 0x12, 0x78, 0x56] := by decide

theorem test_table_word : decodeTableWord 8 0x8B = some (.movR16Rm16 0 (.base 0)) := by decide

/-- The second byte of a table word stands in bits 15..8, and bits above nbits are 0. -/
theorem test_table_word_second_byte :
    decodeTableWord 16 0xFFC388 = some (.movRm8R8 (.register 3) 0) := by decide

/-! ## Tables and numerals (R80-R82, R91, R94) -/

theorem test_reg16 : (List.range 8).map (fun n => reg16Name (BitVec.ofNat 3 n)) =
    ["ax", "cx", "dx", "bx", "sp", "bp", "si", "di"] := by decide

theorem test_reg8 : (List.range 8).map (fun n => reg8Name (BitVec.ofNat 3 n)) =
    ["al", "cl", "dl", "bl", "ah", "ch", "dh", "bh"] := by decide

theorem test_eaBase : (List.range 8).map (fun n => eaBase (BitVec.ofNat 3 n)) =
    ["bx + si", "bx + di", "bp + si", "bp + di", "si", "di", "bp", "bx"] := by decide

theorem test_dec : [0, 7, -1, 4660, -32768, 65535].map dec =
    ["0", "7", "-1", "4660", "-32768", "65535"] := by decide

theorem test_hexByte : [0x00, 0x0F, 0xA0, 0xFF].map hexByte = ["00", "0F", "A0", "FF"] := by
  decide

/-! ## One step on a small input (95_test_vectors.md sections 1 and 2) -/

/-- S4 and 2.4. -/
theorem test_step_88 : firstStep [0x88, 0xC3] = some (2, .done, "\tmov bl, al\n") := by decide

theorem test_step_88_disp : firstStep [0x88, 0x66, 0x80] =
    some (3, .done, "\tmov [bp - 128], ah\n") := by decide

/-- S1. -/
theorem test_step_89 : firstStep [0x89, 0xC1] = some (2, .done, "\tmov cx, ax\n") := by decide

theorem test_step_89_disp : firstStep [0x89, 0x5E, 0xFE] =
    some (3, .done, "\tmov [bp - 2], bx\n") := by decide

theorem test_step_8A : firstStep [0x8A, 0xC3] = some (2, .done, "\tmov al, bl\n") := by decide

theorem test_step_8A_zero_disp : firstStep [0x8A, 0x46, 0x00] =
    some (3, .done, "\tmov al, [bp]\n") := by decide

/-- S2. -/
theorem test_step_8B : firstStep [0x8B, 0x06, 0x34, 0x12] =
    some (4, .done, "\tmov ax, [4660]\n") := by decide

theorem test_step_8B_signed_address : firstStep [0x8B, 0x36, 0x00, 0x80] =
    some (4, .done, "\tmov si, [-32768]\n") := by decide

/-- 2.1; the byte after the instruction leaves STATUS at RUN. -/
theorem test_step_A1 : firstStep [0xA1, 0xFF, 0xFF, 0x90] =
    some (3, .run, "\tmov ax, [65535]\n") := by decide

theorem test_step_A1_truncated : firstStep [0xA1, 0x34] =
    some (1, .trunc, "\t; truncated instruction\n") := by decide

theorem test_step_A3 : firstStep [0xA3, 0x00, 0x80] =
    some (3, .done, "\tmov [32768], ax\n") := by decide

/-- 2.2. -/
theorem test_step_B4 : firstStep [0xB4, 0x80] = some (2, .done, "\tmov ah, -128\n") := by decide

theorem test_step_B0_truncated : firstStep [0xB0] =
    some (1, .trunc, "\t; truncated instruction\n") := by decide

theorem test_step_BC : firstStep [0xBC, 0x00, 0x80] =
    some (3, .done, "\tmov sp, -32768\n") := by decide

theorem test_step_B8_truncated : firstStep [0xB8, 0x34] =
    some (1, .trunc, "\t; truncated instruction\n") := by decide

/-- 2.3. -/
theorem test_step_C6 : firstStep [0xC6, 0x46, 0xFE, 0x80] =
    some (4, .done, "\tmov [bp - 2], byte -128\n") := by decide

theorem test_step_C6_register : firstStep [0xC6, 0xC0, 0x07] =
    some (3, .done, "\tmov al, byte 7\n") := by decide

theorem test_step_C7 : firstStep [0xC7, 0x80, 0x00, 0x01, 0xFF, 0xFF] =
    some (6, .done, "\tmov [bx + si + 256], word -1\n") := by decide

theorem test_step_C7_truncated : firstStep [0xC7, 0x07, 0x00] =
    some (2, .trunc, "\t; truncated instruction\n") := by decide

/-- S4 and 2.5. -/
theorem test_step_FF : firstStep [0xFF, 0x88, 0xC3] =
    some (1, .run, "\t; unrecognized opcode 0xFF\n") := by decide

theorem test_step_00 : firstStep [0x00] =
    some (1, .done, "\t; unrecognized opcode 0x00\n") := by decide

/-- 2.6: the empty buffer is DONE at reset, with the header alone. -/
theorem test_reset_empty :
    State.reset.status = .done ∧ outputText State.reset = "bits 16\n\n" := by decide

/-- STATUS and cause codes (R24, R143). -/
theorem test_codes : [Status.run, .done, .trunc].map statusCode = [0, 1, 2] ∧
    eventCode (.unrecognized 0xFF) = 1 ∧ eventCode .truncated = 2 ∧
    eventValue (.unrecognized 0xFF) = some 0xFF ∧ eventValue .truncated = none := by decide

/-- The stops of a step, each reached. -/
theorem test_stop_runEnded : faultOf (step State.reset) = some .runEnded := by decide

theorem test_stop_outsideBuffer :
    faultOf (step { State.reset with status := .run }) = some .outsideBuffer := by decide

theorem test_stop_bufferShort :
    refusalOf (step { resetWith [(0, 0xA1), (1, 0x34)] 3 with status := .run }) =
      some .bufferShort := by decide

/-- A byte the host owes is not read where the pair it belongs to does not fit below LEN (R44). -/
theorem test_pair_checked_before_read :
    (nextOf (step (resetWith [(0, 0xA1)] 2))).map (fun s => (s.cursor, s.status)) =
      some (1, .trunc) := by decide

/-- A placed word is run by the next step, also after reset (log entry 2). -/
theorem test_withFetchWord :
    (nextOf (step (State.reset.withFetchWord 16 0xC388))).map (fun s => (s.cursor, s.out.drop 2)) =
      some (2, [.mov (.reg 3 .w8) (.reg 0 .w8)]) := by decide

/-! ## Witnesses: the hypotheses of the statements can be met

A witness is named after its statement. Where a statement has several clauses over one input, there
is one for each. -/

theorem wit_DecodeOfEncode :
    (Instr.movRm8Imm8 (.base 7) 0 0x80).wf = true ∧
      (Instr.movRm16R16 (.directAddress 0x8000) 3).wf = true ∧
      (Instr.unrecognized 0x87).wf = true := by decide

theorem wit_EncodeOfDecode :
    decode [0xC6, 0x38, 0x01, 0x90] = .ok (.movRm8Imm8 (.base 0) 7 0x01, [0x90]) := by decide

theorem wit_FieldsInFixedOrder :
    decode [0xC7, 0x06, 0x34, 0x12, 0x78, 0x56] =
      .ok (.movRm16Imm16 (.directAddress 0x1234) 0 0x5678, []) := by decide

/-- Boundary bytes of each range of R70. -/
theorem wit_OpcodeMapOfTheTable :
    decode [0x88, 0xC0] = .ok (.movRm8R8 (.register 0) 0, []) ∧
      decode [0x8B, 0xC0] = .ok (.movR16Rm16 0 (.register 0), []) ∧
      decode [0xB0, 0x05] = .ok (.movR8Imm8 0 0x05, []) ∧
      decode [0xB7, 0x7F] = .ok (.movR8Imm8 7 0x7F, []) ∧
      decode [0xB8, 0x34, 0x12] = .ok (.movR16Imm16 0 0x1234, []) ∧
      decode [0xBF, 0xFF, 0x7F] = .ok (.movR16Imm16 7 0x7FFF, []) ∧
      decode [0xC7, 0xC3, 0x34, 0x12] = .ok (.movRm16Imm16 (.register 3) 0 0x1234, []) ∧
      decode [0x8C] = .ok (.unrecognized 0x8C, []) := by decide

theorem wit_SizedMovIgnoresRegField :
    modField 0x38 = modField 0x00 ∧ rmField 0x38 = rmField 0x00 ∧
      decode [0xC6, 0x38, 0x01] = .ok (.movRm8Imm8 (.base 0) 7 0x01, []) ∧
      decode [0xC7, 0x38, 0x01, 0x00] = .ok (.movRm16Imm16 (.base 0) 7 0x0001, []) := by decide

theorem wit_AddressingModes : (0b111 : Index) ≠ 0b110 ∧ (0b000 : Index) ≠ 0b110 := by decide

/-- Completion at the last place where 3 bytes remain, and truncation one byte short of it. -/
theorem wit_AccumulatorMov :
    (resetBytes [0xA1, 0x34, 0x12]).cursor + 3 ≤ (resetBytes [0xA1, 0x34, 0x12]).len ∧
      (resetBytes [0xA1, 0x34]).cursor + 1 ≤ (resetBytes [0xA1, 0x34]).len ∧
      (resetBytes [0xA1, 0x34]).len < (resetBytes [0xA1, 0x34]).cursor + 3 := by decide

theorem wit_ByteImmediateToRegister :
    0xB0 ≤ (0xB0 : Byte).toNat ∧ (0xB7 : Byte).toNat ≤ 0xB7 ∧
      (resetBytes [0xB7, 0x7F]).cursor + 2 ≤ (resetBytes [0xB7, 0x7F]).len ∧
      (resetBytes [0xB0]).cursor + 1 ≤ (resetBytes [0xB0]).len ∧
      (resetBytes [0xB0]).len < (resetBytes [0xB0]).cursor + 2 := by decide

theorem wit_WordImmediateToRegister :
    0xB8 ≤ (0xB8 : Byte).toNat ∧ (0xBF : Byte).toNat ≤ 0xBF ∧
      (resetBytes [0xBF, 0xFF, 0x7F]).cursor + 3 ≤ (resetBytes [0xBF, 0xFF, 0x7F]).len ∧
      (resetBytes [0xB8, 0x34]).cursor + 1 ≤ (resetBytes [0xB8, 0x34]).len ∧
      (resetBytes [0xB8, 0x34]).len < (resetBytes [0xB8, 0x34]).cursor + 3 := by decide

theorem wit_ImmediateMovLengths :
    decode [0xB7, 0x7F] = .ok (.movR8Imm8 7 0x7F, []) ∧
      decode [0xB8, 0x00, 0x80] = .ok (.movR16Imm16 0 0x8000, []) := by decide

/-- The three checks of `C6`, each at a state where it is the one that fails. -/
theorem wit_ByteImmediateToRm :
    takeModRm [0x46, 0xFE, 0x80] = .ok ((0, .baseDisp8 6 0xFE), [0x80]) ∧
      (resetBytes [0xC6, 0x46, 0xFE, 0x80]).cursor + 4 ≤ (resetBytes [0xC6, 0x46, 0xFE, 0x80]).len ∧
      (resetBytes [0xC6]).len < (resetBytes [0xC6]).cursor + 2 ∧
      (resetBytes [0xC6, 0x46]).cursor + 2 ≤ (resetBytes [0xC6, 0x46]).len ∧
      (resetBytes [0xC6, 0x46]).len < (resetBytes [0xC6, 0x46]).cursor + 3 ∧
      (resetBytes [0xC6, 0x46, 0xFE]).cursor + 3 ≤ (resetBytes [0xC6, 0x46, 0xFE]).len ∧
      (resetBytes [0xC6, 0x46, 0xFE]).len < (resetBytes [0xC6, 0x46, 0xFE]).cursor + 4 := by
  decide

theorem wit_WordImmediateToRm :
    takeModRm [0x06, 0x34, 0x12, 0x78, 0x56] =
        .ok ((0, .directAddress 0x1234), [0x78, 0x56]) ∧
      (resetBytes [0xC7, 0x06, 0x34, 0x12, 0x78, 0x56]).cursor + 6 ≤
        (resetBytes [0xC7, 0x06, 0x34, 0x12, 0x78, 0x56]).len ∧
      (resetBytes [0xC7]).len < (resetBytes [0xC7]).cursor + 2 ∧
      (resetBytes [0xC7, 0x06]).cursor + 2 ≤ (resetBytes [0xC7, 0x06]).len ∧
      (resetBytes [0xC7, 0x06]).len < (resetBytes [0xC7, 0x06]).cursor + 4 ∧
      (resetBytes [0xC7, 0x06, 0x34, 0x12, 0x78]).cursor + 4 ≤
        (resetBytes [0xC7, 0x06, 0x34, 0x12, 0x78]).len ∧
      (resetBytes [0xC7, 0x06, 0x34, 0x12, 0x78]).len <
        (resetBytes [0xC7, 0x06, 0x34, 0x12, 0x78]).cursor + 6 := by decide

theorem wit_SizedMovToRegister :
    (resetBytes [0xC6, 0xC0, 0x07]).cursor + 3 ≤ (resetBytes [0xC6, 0xC0, 0x07]).len ∧
      (resetBytes [0xC7, 0xC3, 0x34, 0x12]).cursor + 4 ≤
        (resetBytes [0xC7, 0xC3, 0x34, 0x12]).len := by decide

theorem wit_RegisterMemoryMov :
    takeModRm [0x97, 0x10, 0x27] = .ok ((2, .baseDisp16 7 0x2710), []) ∧
      (resetBytes [0x8B, 0x97, 0x10, 0x27]).cursor + 4 ≤
        (resetBytes [0x8B, 0x97, 0x10, 0x27]).len ∧
      (resetBytes [0x8B]).cursor + 1 ≤ (resetBytes [0x8B]).len ∧
      (resetBytes [0x8B]).len < (resetBytes [0x8B]).cursor + 2 ∧
      (resetBytes [0x8B, 0x86, 0x00]).cursor + 2 ≤ (resetBytes [0x8B, 0x86, 0x00]).len ∧
      (resetBytes [0x8B, 0x86, 0x00]).len < (resetBytes [0x8B, 0x86, 0x00]).cursor + 4 := by
  decide

theorem wit_RegisterDirectPair :
    0x88 ≤ (0x88 : Byte).toNat ∧ (0x8B : Byte).toNat ≤ 0x8B ∧
      modField 0xC0 = 0b11 ∧ modField 0xFF = 0b11 := by decide

theorem wit_UnrecognizedByteSkipped :
    (resetBytes [0xFF]).status = .run ∧ isMovOpcode 0xFF = false ∧
      memRead8 (resetBytes [0xFF]) (resetBytes [0xFF]).cursor = some 0xFF ∧
      (resetBytes [0xFF]).cursor + 1 ≤ (resetBytes [0xFF]).len := by decide

theorem wit_TruncationStopsTheRun :
    (resetBytes [0xC6, 0x46, 0xFE]).status = .run ∧
      decode (fetchBytes (resetBytes [0xC6, 0x46, 0xFE])) = .error (.truncated 3 1) ∧
      (resetBytes [0xC6, 0x46, 0xFE]).len - ((resetBytes [0xC6, 0x46, 0xFE]).cursor + 3) < 1 := by
  decide

/-- A state of a run in RUN that meets the invariant: for StepKeepsInvariant, RunningStateSteps,
EveryRunEnds and TruncatesExactlyWhenShort. -/
theorem wit_Inv_running : Inv (resetBytes [0xB0, 0x05, 0x8B]) := by
  refine ⟨⟨?_, ?_, ?_⟩, ?_, ?_, ?_, ?_, ?_, ?_, ?_⟩ <;> decide

/-- So does the state after its first step, still in RUN. -/
theorem wit_Inv_after_step : ∃ t, step (resetBytes [0xB0, 0x05, 0x8B]) = .next t ∧ Inv t := by
  refine ⟨_, rfl, ⟨⟨?_, ?_, ?_⟩, ?_, ?_, ?_, ?_, ?_, ?_, ?_⟩⟩ <;> decide

/-- A state of a run that meets the invariant and is about to truncate. -/
theorem wit_Inv_about_to_truncate : Inv (resetBytes [0x8B]) := by
  refine ⟨⟨?_, ?_, ?_⟩, ?_, ?_, ?_, ?_, ?_, ?_, ?_⟩ <;> decide

theorem wit_TruncatesExactlyWhenShort :
    (resetBytes [0xB0, 0x05, 0x8B]).status = .run ∧
      memRead8 (resetBytes [0xB0, 0x05, 0x8B]) 0 = some 0xB0 ∧
      memRead8 (resetBytes [0xB0, 0x05, 0x8B]) 1 = some 0x05 ∧
      memRead8 (resetBytes [0x8B]) 0 = some 0x8B ∧
      ¬(0 + 1 < (resetBytes [0x8B]).len) := by decide

/-- Each place of R143 where a step truncates: CURSOR at start + 1, start + 2, start + 2 + D. -/
theorem wit_TruncatesExactlyWhenShort_places :
    [[0xA1, 0x34], [0xA3], [0xB0], [0xBF, 0x34], [0x88], [0x8B, 0x06, 0x34], [0xC6],
      [0xC7, 0x46], [0xC7, 0x46, 0xFE, 0x34], [0xC6, 0xC0]].map
        (fun bs => (nextOf (step (resetBytes bs))).map fun t => (t.cursor, t.status)) =
      [1, 1, 1, 1, 1, 2, 1, 2, 3, 2].map fun n => some (n, .trunc) := by decide

/-- An unrecognized byte, a truncation, and their diagnostics among the new records. -/
theorem wit_EventsArePrecise :
    (∃ t, step (resetBytes [0xFF]) = .next t ∧
      memRead8 (resetBytes [0xFF]) 0 = some 0xFF ∧ isMovOpcode 0xFF = false ∧
      .diagUnrecognized 0xFF ∈ t.out.drop (resetBytes [0xFF]).out.length) ∧
    ∃ t, step (resetBytes [0x8B]) = .next t ∧
      decode (fetchBytes (resetBytes [0x8B])) = .error (.truncated 1 1) ∧ t.status = .trunc ∧
      .diagTruncated ∈ t.out.drop (resetBytes [0x8B]).out.length :=
  ⟨⟨_, rfl, by decide⟩, ⟨_, rfl, by decide⟩⟩

theorem wit_StepRunsTheDecodedInstruction :
    (resetBytes [0x8A, 0x07]).status = .run ∧
      decode (fetchBytes (resetBytes [0x8A, 0x07])) = .ok (.movR8Rm8 0 (.base 7), []) := by decide

theorem wit_StepRunsTheEncodedInstruction :
    (resetBytes [0x90, 0xB8, 0x34, 0x12]).status = .run ∧
      (Instr.movR16Imm16 0 0x1234).wf = true ∧
      ∀ k, k < (encode (.movR16Imm16 0 0x1234)).length →
        memRead8 { resetBytes [0x90, 0xB8, 0x34, 0x12] with cursor := 1 } (1 + k) =
          (encode (.movR16Imm16 0 0x1234))[k]? := by decide

/-- A step with a next state: for StepFrame, CursorAdvances, StepIgnoresHistory, StepKeepsInvariant and,
with the trailing byte, for both ends of StatusAfterStep. -/
theorem wit_StepFrame :
    (∃ t, step (resetBytes [0xB0, 0x05]) = .next t ∧ t.status = .done) ∧
      (∃ t, step (resetBytes [0xB0, 0x05, 0x8B]) = .next t ∧ t.status = .run) ∧
      ∃ t, step (resetBytes [0x8B]) = .next t ∧ t.status = .trunc :=
  ⟨⟨_, rfl, by decide⟩, ⟨_, rfl, by decide⟩, ⟨_, rfl, by decide⟩⟩

theorem wit_TerminalStatusHasNoStep :
    State.reset.status = .done ∧
      (takeEvent .truncated 1 (resetBytes [0x8B])).status = .trunc := by decide

/-- Two buffers that differ below CURSOR and past LEN and agree in between. -/
theorem wit_StepReadsOnlyItsWindow :
    ∀ a, 1 ≤ a → a < 1 + 6 → a < 3 →
      Memory.read [(0, 0xFF), (1, 0xB0), (2, 0x05), (9, 0x77)] a =
        (resetBytes [0x90, 0xB0, 0x05]).buf.read a := by
  intro a h1 _ h2
  interval_cases a <;> decide

/-- Two steps of a run from reset (for OutputIsAppendOnly and BufferIsConstant), the second truncated. -/
theorem wit_OutputIsAppendOnly : ∃ t, runSteps 2 (resetBytes [0xB0, 0x05, 0x8B]) = .next t ∧
    t.status = .trunc := ⟨_, rfl, by decide⟩

/-- A point of a run that has not been truncated. -/
theorem wit_RecordsAccountForEveryByte :
    ∃ t, runSteps 1 (resetBytes [0xB0, 0x05, 0x8B]) = .next t ∧ t.status ≠ .trunc :=
  ⟨_, rfl, by decide⟩

/-- An index past LEN, and the boundary index LEN itself. -/
theorem wit_BufferIsConstant :
    (resetBytes [0x8B]).len ≤ 1 ∧ memRead8 (resetBytes [0x8B]) 1 = none ∧
      LenLegal State.reset := ⟨by decide, by decide, Nat.zero_le _⟩

theorem wit_MemReadIsLittleEndian :
    1 + 1 ≤ (resetBytes [0xA1, 0x34, 0x12]).len ∧
      memRead8 (resetBytes [0xA1, 0x34, 0x12]) 1 = some 0x34 ∧
      memRead8 (resetBytes [0xA1, 0x34, 0x12]) 2 = some 0x12 := by decide

theorem wit_AddressFieldIsMemRead :
    [0xA1, 0xA3].map (fun b => let s := resetBytes [b, 0x34, 0x12]
      (s.status, memRead8 s 0, memRead16 s 1)) =
    [(.run, some 0xA1, some 0x1234), (.run, some 0xA3, some 0x1234)] := by decide

theorem wit_DecimalNumerals : (decNat 0).toList.head? = some '0' ∧ (1 : Nat) ≠ 0 := by decide

/-- The three clauses at their boundaries: 0, 1, 0x7FFF, 0x8000. -/
theorem wit_DisplacementText :
    (0 : Word) = 0 ∧ (1 : Word) ≠ 0 ∧ (0x7FFF : Word) ≠ 0 ∧ (0x7FFF : Word).toNat < 0x8000 ∧
      0x8000 ≤ (0x8000 : Word).toNat := by decide

theorem wit_AddressTextDiffersOnlyAbove :
    0x8000 ≤ (0x8000 : Word).toNat ∧ (0x7FFF : Word).toNat < 0x8000 := by decide

theorem wit_OneLineForEachRecord :
    recordLegal (.mov (.reg 0 .w16) (.memAbs 0x1234)) = true ∧ recordLegal .diagTruncated = true := by
  decide

end Sys2Proof.Tests
end

section
/-! PROOF. The family of 10_state.md: what a run keeps of the state (R23) and how OUT grows (R25). -/

namespace Sys2Proof.Machine

/-! ## Reads of the buffer -/

/-- A read depends on the buffer and LEN only. -/
theorem memRead8_congr (s t : State) (hbuf : t.buf = s.buf) (hlen : t.len = s.len) (a : Nat) :
    memRead8 t a = memRead8 s a := by
  rw [memRead8, memRead8, hbuf, hlen]

theorem memRead8_not_below (s : State) (a : Nat) (h : s.len ≤ a) : memRead8 s a = none :=
  if_neg (Nat.not_lt.2 h)

/-! ## States that differ by appended records -/

/-- `t` has the buffer and LEN of `s`, and OUT of `s` with `k` more records after it; CURSOR and STATUS
may be any. -/
structure Appends (k : Nat) (s t : State) : Prop where
  buf : t.buf = s.buf
  len : t.len = s.len
  out : ∃ rs : List Record, t.out = s.out ++ rs ∧ rs.length = k

theorem Appends.refl (s : State) : Appends 0 s s := ⟨rfl, rfl, [], by simp, rfl⟩

theorem Appends.trans {j k : Nat} {s t u : State} (hst : Appends j s t) (htu : Appends k t u) :
    Appends (j + k) s u := by
  obtain ⟨rs, hrs, hj⟩ := hst.out
  obtain ⟨rs', hrs', hk⟩ := htu.out
  exact ⟨htu.buf.trans hst.buf, htu.len.trans hst.len, rs ++ rs',
    by rw [hrs', hrs, List.append_assoc], by rw [List.length_append, hj, hk]⟩

theorem advance_emit_appends (cur : Nat) (r : Record) (s : State) :
    Appends 1 s (advance cur (emit r s)) := ⟨by simp, by simp, [r], by simp, rfl⟩

theorem takeEvent_appends (e : Event) (cur : Nat) (s : State) :
    Appends 1 s (takeEvent e cur s) := ⟨by simp, by simp, [eventRecord e], by simp, rfl⟩

/-! ## What meanings, steps and runs append -/

/-- Every meaning ends in its own record or in the truncation event, one record either way. -/
theorem exec_appends (i : Instr) (s t : State) (h : exec i s = .next t) : Appends 1 s t := by
  rw [exec_eq_runBody] at h
  obtain hrun | ⟨c, -, hrun⟩ := runBody_cases (fieldBytes i) (recordOf i) s
  · cases hrun.symm.trans h
    exact advance_emit_appends _ _ s
  · cases hrun.symm.trans h
    exact takeEvent_appends .truncated c s

theorem step_appends (s t : State) (h : step s = .next t) : Appends 1 s t := by
  obtain ⟨-, ⟨i, -, -, hexec⟩ | ⟨c, k, -, -, rfl⟩⟩ := step_next_cases s t h
  · exact exec_appends i s t hexec
  · exact takeEvent_appends .truncated (s.cursor + c) s

theorem runSteps_appends (k : Nat) (s t : State) (h : runSteps k s = .next t) : Appends k s t := by
  induction k generalizing t with
  | zero =>
    cases h
    exact .refl s
  | succ k ih =>
    obtain ⟨u, hrun, hstep⟩ := (runSteps_last k s t).1 h
    exact (ih u hrun).trans (step_appends u t hstep)

/-! ## The obligations -/

/-- Settles O38: a run of `k` steps appends `k` records, by induction on the steps. -/
theorem outputIsAppendOnly : Obligations.OutputIsAppendOnly :=
  ⟨fun _ => resetWith_out _ _, fun k s t h => (runSteps_appends k s t h).out⟩

/-- Settles O39: a run keeps the buffer and LEN, and reads depend on nothing else. -/
theorem bufferIsConstant : Obligations.BufferIsConstant := by
  refine ⟨fun m n => ⟨resetWith_buf m n, resetWith_len m n⟩, fun k s t h => ?_⟩
  obtain ⟨hbuf, hlen, -⟩ := runSteps_appends k s t h
  have hread : ∀ a, memRead8 t a = memRead8 s a := memRead8_congr s t hbuf hlen
  refine ⟨hbuf, hlen, fun hs => ?_, hread, fun a ha => ?_⟩
  · rwa [LenLegal, hlen]
  · rw [hread, memRead8_not_below s a ha]

end Sys2Proof.Machine
end

section
/-! PROOF. The family of 30_encoding.md: the opcode byte decides the row (R70, R71). -/

namespace Sys2Proof

/-! ## The class of an instruction -/

/-- The opcode class (R71) under which the decoder reads an instruction; `decode_instrClass` ties it to
`classify`. -/
def instrClass : Instr → OpClass
  | .movRm8R8 _ _ => .rmReg false false
  | .movRm16R16 _ _ => .rmReg false true
  | .movR8Rm8 _ _ => .rmReg true false
  | .movR16Rm16 _ _ => .rmReg true true
  | .movAxAddr _ => .accLoad
  | .movAddrAx _ => .accStore
  | .movR8Imm8 _ _ => .immReg8
  | .movR16Imm16 _ _ => .immReg16
  | .movRm8Imm8 _ _ _ => .immRm8
  | .movRm16Imm16 _ _ _ => .immRm16
  | .unrecognized _ => .unrecognized

theorem instrClass_rmReg8 (i : Instr) :
    instrClass i = .rmReg false false ↔ ∃ rm reg, i = .movRm8R8 rm reg := by
  cases i <;> simp [instrClass]

theorem instrClass_rmReg16 (i : Instr) :
    instrClass i = .rmReg false true ↔ ∃ rm reg, i = .movRm16R16 rm reg := by
  cases i <;> simp [instrClass]

theorem instrClass_regRm8 (i : Instr) :
    instrClass i = .rmReg true false ↔ ∃ reg rm, i = .movR8Rm8 reg rm := by
  cases i <;> simp [instrClass]

theorem instrClass_regRm16 (i : Instr) :
    instrClass i = .rmReg true true ↔ ∃ reg rm, i = .movR16Rm16 reg rm := by
  cases i <;> simp [instrClass]

theorem instrClass_accLoad (i : Instr) : instrClass i = .accLoad ↔ ∃ a, i = .movAxAddr a := by
  cases i <;> simp [instrClass]

theorem instrClass_accStore (i : Instr) : instrClass i = .accStore ↔ ∃ a, i = .movAddrAx a := by
  cases i <;> simp [instrClass]

theorem instrClass_immReg8 (i : Instr) : instrClass i = .immReg8 ↔ ∃ r v, i = .movR8Imm8 r v := by
  cases i <;> simp [instrClass]

theorem instrClass_immReg16 (i : Instr) :
    instrClass i = .immReg16 ↔ ∃ r v, i = .movR16Imm16 r v := by
  cases i <;> simp [instrClass]

theorem instrClass_immRm8 (i : Instr) :
    instrClass i = .immRm8 ↔ ∃ rm reg v, i = .movRm8Imm8 rm reg v := by
  cases i <;> simp [instrClass]

theorem instrClass_immRm16 (i : Instr) :
    instrClass i = .immRm16 ↔ ∃ rm reg v, i = .movRm16Imm16 rm reg v := by
  cases i <;> simp [instrClass]

/-! ## What each format decodes to -/

theorem decodeAcc_ok (mk : Word → Instr) (bs rest : List Byte) (i : Instr)
    (h : decodeAcc mk bs = .ok (i, rest)) : ∃ a, i = mk a := by
  obtain ⟨p, -, hp⟩ := (map_ok _ _ _).1 h
  exact ⟨p.1, (congrArg Prod.fst hp).symm⟩

theorem decodeImmReg8_ok (r : Index) (bs rest : List Byte) (i : Instr)
    (h : decodeImmReg8 r bs = .ok (i, rest)) : ∃ v, i = .movR8Imm8 r v := by
  obtain ⟨p, -, hp⟩ := (map_ok _ _ _).1 h
  exact ⟨p.1, (congrArg Prod.fst hp).symm⟩

theorem decodeImmReg16_ok (r : Index) (bs rest : List Byte) (i : Instr)
    (h : decodeImmReg16 r bs = .ok (i, rest)) : ∃ v, i = .movR16Imm16 r v := by
  obtain ⟨p, -, hp⟩ := (map_ok _ _ _).1 h
  exact ⟨p.1, (congrArg Prod.fst hp).symm⟩

theorem decodeImmRm8_ok (bs rest : List Byte) (i : Instr) (h : decodeImmRm8 bs = .ok (i, rest)) :
    ∃ rm reg v, i = .movRm8Imm8 rm reg v := by
  unfold decodeImmRm8 at h
  split at h
  · cases h
  · obtain ⟨p, -, hp⟩ := (map_ok _ _ _).1 h
    exact ⟨_, _, p.1, (congrArg Prod.fst hp).symm⟩

theorem decodeImmRm16_ok (bs rest : List Byte) (i : Instr) (h : decodeImmRm16 bs = .ok (i, rest)) :
    ∃ rm reg v, i = .movRm16Imm16 rm reg v := by
  unfold decodeImmRm16 at h
  split at h
  · cases h
  · obtain ⟨p, -, hp⟩ := (map_ok _ _ _).1 h
    exact ⟨_, _, p.1, (congrArg Prod.fst hp).symm⟩

/-- The bits d and w choose the row of format RMREG (R64). -/
theorem decodeRmReg_instrClass (d w : Bool) (bs rest : List Byte) (i : Instr)
    (h : decodeRmReg d w bs = .ok (i, rest)) : instrClass i = .rmReg d w := by
  obtain ⟨p, -, hp⟩ := (map_ok _ _ _).1 h
  obtain rfl := congrArg Prod.fst hp
  cases d <;> cases w <;> rfl

/-! ## The decoder keeps the class of the opcode byte -/

theorem decode_unrecognized (b : Byte) (bs : List Byte) (h : classify b = .unrecognized) :
    decode (b :: bs) = .ok (.unrecognized b, bs) := by
  rw [decode, h]

/-- The opcode byte alone decides the class of what is decoded (R71). -/
theorem decode_instrClass (b : Byte) (bs rest : List Byte) (i : Instr)
    (h : decode (b :: bs) = .ok (i, rest)) : instrClass i = classify b := by
  rw [decode] at h
  cases hc : classify b <;> simp only [hc] at h
  case accLoad => exact (instrClass_accLoad i).2 (decodeAcc_ok _ _ _ _ h)
  case accStore => exact (instrClass_accStore i).2 (decodeAcc_ok _ _ _ _ h)
  case immReg8 => exact (instrClass_immReg8 i).2 ⟨_, decodeImmReg8_ok _ _ _ _ h⟩
  case immReg16 => exact (instrClass_immReg16 i).2 ⟨_, decodeImmReg16_ok _ _ _ _ h⟩
  case immRm8 => exact (instrClass_immRm8 i).2 (decodeImmRm8_ok _ _ _ h)
  case immRm16 => exact (instrClass_immRm16 i).2 (decodeImmRm16_ok _ _ _ h)
  case rmReg d w => exact decodeRmReg_instrClass d w _ _ _ h
  case unrecognized =>
    cases h
    rfl

/-- The fallback row holds the byte it was decoded from (R72). -/
theorem decode_classify_unrecognized (b : Byte) (bs rest : List Byte) (i : Instr)
    (h : decode (b :: bs) = .ok (i, rest)) : classify b = .unrecognized ↔ i = .unrecognized b := by
  constructor
  · intro hc
    cases (decode_unrecognized b bs hc).symm.trans h
    rfl
  · rintro rfl
    exact (decode_instrClass b bs rest _ h).symm

/-! ## The opcode table by the byte's value (R70) -/

theorem classify_immReg8_range (b : Byte) :
    classify b = .immReg8 ↔ 0xB0 ≤ b.toNat ∧ b.toNat ≤ 0xB7 := by
  revert b
  decide

theorem classify_immReg16_range (b : Byte) :
    classify b = .immReg16 ↔ 0xB8 ≤ b.toNat ∧ b.toNat ≤ 0xBF := by
  revert b
  decide

theorem isMovOpcode_iff (b : Byte) :
    isMovOpcode b = true ↔
      (0x88 ≤ b.toNat ∧ b.toNat ≤ 0x8B ∨ b.toNat = 0xA1 ∨ b.toNat = 0xA3 ∨
        0xB0 ≤ b.toNat ∧ b.toNat ≤ 0xBF ∨ b.toNat = 0xC6 ∨ b.toNat = 0xC7) := by
  simp [isMovOpcode, or_assoc]

/-- Settles O4: the class of the decoded instruction is the class of the opcode byte, and each class has
its bytes on one side and its row on the other. -/
theorem opcodeMapOfTheTable : Obligations.OpcodeMapOfTheTable := by
  intro b bs rest i h
  have hclass : ∀ c, classify b = c ↔ instrClass i = c := fun c => by
    rw [decode_instrClass b bs rest i h]
  have hbyte : ∀ v : Byte, b.toNat = v.toNat ↔ b = v := fun v => BitVec.toNat_inj
  refine ⟨?_, ?_, ?_, ?_, ?_, ?_, ?_, ?_, ?_, ?_, ?_⟩
  · rw [← instrClass_rmReg8, ← hclass, classify_rmReg]
    exact hbyte 0x88
  · rw [← instrClass_rmReg16, ← hclass, classify_rmReg]
    exact hbyte 0x89
  · rw [← instrClass_regRm8, ← hclass, classify_rmReg]
    exact hbyte 0x8A
  · rw [← instrClass_regRm16, ← hclass, classify_rmReg]
    exact hbyte 0x8B
  · rw [← instrClass_accLoad, ← hclass, classify_accLoad]
    exact hbyte 0xA1
  · rw [← instrClass_accStore, ← hclass, classify_accStore]
    exact hbyte 0xA3
  · rw [← instrClass_immReg8, ← hclass, classify_immReg8_range]
  · rw [← instrClass_immReg16, ← hclass, classify_immReg16_range]
  · rw [← instrClass_immRm8, ← hclass, classify_immRm8]
    exact hbyte 0xC6
  · rw [← instrClass_immRm16, ← hclass, classify_immRm16]
    exact hbyte 0xC7
  · rw [← decode_classify_unrecognized b bs rest i h, classify_unrecognized, ← isMovOpcode_iff,
      Bool.not_eq_true]

end Sys2Proof
end

section
/-! PROOF. The family of 41_mov_imm_reg.md: the length and the immediate of 0xB0-0xBF (R112). -/

namespace Sys2Proof.Machine

/-! ## Completion -/

/-- An instruction whose bytes are all there completes by its own length with its own record (R75). -/
theorem exec_completesWith (i : Instr) : CompletesWith i (instrLength i) (recordOf i) := by
  intro s h
  rw [instrLength, ← Nat.add_assoc] at h ⊢
  rw [exec_eq_runBody, runBody_fits _ _ _ h]
  rfl

/-! ## The decoder on 0xB0-0xBF -/

/-- Bit 3 of an opcode 0xB0-0xBF is its width flag (R66). -/
theorem classify_immReg_bit3 (b : Byte) (hlo : 0xB0 ≤ b.toNat) (hhi : b.toNat ≤ 0xBF) :
    classify b = if b.getLsbD 3 then .immReg16 else .immReg8 := by
  revert b
  decide

theorem decode_immReg8 (b : Byte) (bs rest : List Byte) (i : Instr) (hc : classify b = .immReg8) :
    decode (b :: bs) = .ok (i, rest) ↔ ∃ v, bs = v :: rest ∧ i = .movR8Imm8 (opcReg b) v := by
  simp only [decode, hc, decodeImmReg8, map_ok, Prod.exists, take8_ok, Prod.mk.injEq]
  constructor
  · rintro ⟨v, _, rfl, rfl, rfl⟩
    exact ⟨v, rfl, rfl⟩
  · rintro ⟨v, rfl, rfl⟩
    exact ⟨v, rest, rfl, rfl, rfl⟩

theorem decode_immReg16 (b : Byte) (bs rest : List Byte) (i : Instr)
    (hc : classify b = .immReg16) :
    decode (b :: bs) = .ok (i, rest) ↔
      ∃ lo hi, bs = lo :: hi :: rest ∧ i = .movR16Imm16 (opcReg b) (littleEndian lo hi) := by
  simp only [decode, hc, decodeImmReg16, map_ok, Prod.exists, take16_ok, Prod.mk.injEq]
  constructor
  · rintro ⟨_, _, ⟨lo, hi, rfl, rfl⟩, rfl, rfl⟩
    exact ⟨lo, hi, rfl, rfl⟩
  · rintro ⟨lo, hi, rfl, rfl⟩
    exact ⟨_, rest, ⟨lo, hi, rfl, rfl⟩, rfl, rfl⟩

/-! ## The obligation -/

/-- Settles O11: bit 3 chooses the format, the format gives the bytes consumed, and sign extension keeps
the value of the byte that the record holds. -/
theorem immediateMovLengths : Obligations.ImmediateMovLengths := by
  intro opc bs rest i hlo hhi h
  have hclass := classify_immReg_bit3 opc hlo hhi
  cases hbit : opc.getLsbD 3 with
  | true =>
    rw [hbit] at hclass
    obtain ⟨lo, hi, rfl, rfl⟩ := (decode_immReg16 opc bs rest i hclass).1 h
    exact ⟨rfl, opcReg opc, .w16, littleEndian lo hi, exec_completesWith _, lo, hi, rfl, rfl⟩
  | false =>
    rw [hbit] at hclass
    obtain ⟨b, rfl, rfl⟩ := (decode_immReg8 opc bs rest i hclass).1 h
    have hvalue : (b.signExtend 16).toInt = b.toInt :=
      BitVec.toInt_signExtend_of_le (by decide)
    refine ⟨rfl, opcReg opc, .w8, b.signExtend 16, ?_, b, rfl, rfl⟩
    rw [hvalue]
    exact exec_completesWith _

end Sys2Proof.Machine
end

section
/-! PROOF. The family of 43_mov_rm_reg.md: 0x88-0x8B with mod = 11 (R134). -/

namespace Sys2Proof

/-! ## The decoder on 0x88-0x8B -/

/-- The four rows of format RMREG by the opcode's bits d and w (R64); `decode_rmReg` ties it to the
decoder. -/
def rmRegInstr (d w : Bool) (reg : Index) (rm : RmForm) : Instr :=
  match d, w with
  | false, false => .movRm8R8 rm reg
  | false, true => .movRm16R16 rm reg
  | true, false => .movR8Rm8 reg rm
  | true, true => .movR16Rm16 reg rm

/-- Bit 1 of an opcode 0x88-0x8B is its direction and bit 0 its width (R66). -/
theorem classify_rmReg_bits (b : Byte) (hlo : 0x88 ≤ b.toNat) (hhi : b.toNat ≤ 0x8B) :
    classify b = .rmReg (b.getLsbD 1) (b.getLsbD 0) := by
  revert b
  decide

theorem decode_rmReg (b : Byte) (bs rest : List Byte) (d w : Bool) (reg : Index) (rm : RmForm)
    (hc : classify b = .rmReg d w) (hrm : takeModRm bs = .ok ((reg, rm), rest)) :
    decode (b :: bs) = .ok (rmRegInstr d w reg rm, rest) := by
  simp only [decode, hc, decodeRmReg, hrm, Except.map]
  cases d <;> cases w <;> rfl

/-- A ModRM byte with mod = 11 selects a register and has no displacement (R77). -/
theorem takeModRm_register (m : Byte) (rest : List Byte) (hmod : modField m = 0b11) :
    takeModRm (m :: rest) = .ok ((regField m, .register (rmField m)), rest) := by
  have hbytes : encodeRm (regField m) (.register (rmField m)) = [m] := by
    rw [encodeRm, ← hmod, modRmByte_fields]
  have hread := takeModRm_encodeRm (regField m) (.register (rmField m)) rest rfl
  rwa [hbytes] at hread

end Sys2Proof

namespace Sys2Proof.Machine

/-- Between two registers each of the four rows is two bytes long, and its record names the `reg`
register first exactly when d is set. -/
theorem rmRegInstr_register_completesWith (d w : Bool) (reg rm : Index) :
    CompletesWith (rmRegInstr d w reg (.register rm)) 2
      (.mov (.reg (if d then reg else rm) (if w then .w16 else .w8))
        (.reg (if d then rm else reg) (if w then .w16 else .w8))) := by
  cases d <;> cases w <;> exact exec_completesWith _

/-! ## The obligation -/

/-- Settles O16: the opcode's bits choose the row, mod = 11 makes its form a register, and the row
completes by two bytes with both registers in its record. -/
theorem registerDirectPair : Obligations.RegisterDirectPair := by
  intro opc m rest hlo hhi hmod
  have hdecode := decode_rmReg opc (m :: rest) rest _ _ _ _ (classify_rmReg_bits opc hlo hhi)
    (takeModRm_register m rest hmod)
  refine ⟨_, _, _, _, hdecode, rfl, ?_, rmRegInstr_register_completesWith _ _ _ _⟩
  cases opc.getLsbD 1 <;> simp

end Sys2Proof.Machine
end

section
/-! PROOF. The family of 60_exceptions.md: a step that raises an event (R141, R142, R145). -/

namespace Sys2Proof.Machine

/-! ## A decoded instruction's bytes are all there -/

theorem take8_length (n : Nat) (bs rest : List Byte) (v : Byte) (h : take8 n bs = .ok (v, rest)) :
    bs.length = rest.length + 1 := by
  rw [(take8_ok n bs v rest).1 h, List.length_cons]

theorem take16_length (n : Nat) (bs rest : List Byte) (v : Word)
    (h : take16 n bs = .ok (v, rest)) : bs.length = rest.length + 2 := by
  obtain ⟨lo, hi, rfl, -⟩ := (take16_ok n bs v rest).1 h
  rfl

theorem takeModRm_length (bs rest : List Byte) (reg : Index) (rm : RmForm)
    (h : takeModRm bs = .ok ((reg, rm), rest)) : bs.length = 1 + dispBytes rm + rest.length := by
  rw [← (takeModRm_encode bs rest reg rm h).2, List.length_append, encodeRm_length]

/-- An instruction made from the last field read holds that field, and leaves the same rest. -/
theorem map_field_ok {α : Type} (x : Decoded α) (mk : α → Instr) (rest : List Byte) (i : Instr)
    (h : (x.map fun p => (mk p.1, p.2)) = .ok (i, rest)) : ∃ v, x = .ok (v, rest) ∧ i = mk v := by
  obtain ⟨⟨v, r⟩, hx, hp⟩ := (map_ok _ x _).1 h
  cases hp
  exact ⟨v, hx, rfl⟩

/-- Format ACC, for either of its rows. -/
theorem decodeAcc_length (mk : Word → Instr) (hmk : ∀ a, instrLength (mk a) = 3)
    (bs rest : List Byte) (i : Instr) (h : decodeAcc mk bs = .ok (i, rest)) :
    bs.length + 1 = instrLength i + rest.length := by
  obtain ⟨a, haddr, rfl⟩ := map_field_ok _ _ _ _ h
  have := take16_length _ _ _ _ haddr
  rw [hmk]
  omega

theorem decodeImmRm8_length (bs rest : List Byte) (i : Instr)
    (h : decodeImmRm8 bs = .ok (i, rest)) : bs.length + 1 = instrLength i + rest.length := by
  unfold decodeImmRm8 at h
  split at h
  · cases h
  · rename_i hmodRm
    obtain ⟨v, himm, rfl⟩ := map_field_ok _ _ _ _ h
    have := takeModRm_length _ _ _ _ hmodRm
    have := take8_length _ _ _ _ himm
    simp [instrLength, fieldBytes]
    omega

theorem decodeImmRm16_length (bs rest : List Byte) (i : Instr)
    (h : decodeImmRm16 bs = .ok (i, rest)) : bs.length + 1 = instrLength i + rest.length := by
  unfold decodeImmRm16 at h
  split at h
  · cases h
  · rename_i hmodRm
    obtain ⟨v, himm, rfl⟩ := map_field_ok _ _ _ _ h
    have := takeModRm_length _ _ _ _ hmodRm
    have := take16_length _ _ _ _ himm
    simp [instrLength, fieldBytes]
    omega

theorem decodeRmReg_length (d w : Bool) (bs rest : List Byte) (i : Instr)
    (h : decodeRmReg d w bs = .ok (i, rest)) : bs.length + 1 = instrLength i + rest.length := by
  obtain ⟨⟨⟨reg, rm⟩, r⟩, hmodRm, hp⟩ := (map_ok _ _ _).1 h
  cases hp
  have := takeModRm_length _ _ _ _ hmodRm
  cases d <;> cases w <;> simp [instrLength, fieldBytes] <;> omega

/-- The decoder consumes exactly an instruction's length (R76). -/
theorem decode_length (b : Byte) (bs rest : List Byte) (i : Instr)
    (h : decode (b :: bs) = .ok (i, rest)) : bs.length + 1 = instrLength i + rest.length := by
  cases hc : classify b with
  | accLoad =>
    rw [decode, hc] at h
    exact decodeAcc_length _ (fun _ => rfl) _ _ _ h
  | accStore =>
    rw [decode, hc] at h
    exact decodeAcc_length _ (fun _ => rfl) _ _ _ h
  | immReg8 =>
    obtain ⟨v, rfl, rfl⟩ := (decode_immReg8 b bs rest i hc).1 h
    exact Nat.add_comm rest.length 2
  | immReg16 =>
    obtain ⟨lo, hi, rfl, rfl⟩ := (decode_immReg16 b bs rest i hc).1 h
    exact Nat.add_comm rest.length 3
  | immRm8 =>
    rw [decode, hc] at h
    exact decodeImmRm8_length _ _ _ h
  | immRm16 =>
    rw [decode, hc] at h
    exact decodeImmRm16_length _ _ _ h
  | rmReg d w =>
    rw [decode, hc] at h
    exact decodeRmReg_length d w _ _ _ h
  | unrecognized =>
    cases (decode_unrecognized b bs hc).symm.trans h
    exact Nat.add_comm bs.length 1

/-! ## The records of the two events -/

theorem recordOf_eq_diagUnrecognized (i : Instr) (b : Byte) :
    recordOf i = .diagUnrecognized b ↔ i = .unrecognized b := by
  cases i <;> simp [recordOf]

/-- Only the fallback row writes the diagnostic of an unrecognized byte, and it names the opcode
byte (R141). -/
theorem decode_diagUnrecognized (b b' : Byte) (bs rest : List Byte) (i : Instr)
    (h : decode (b :: bs) = .ok (i, rest)) (hrecord : recordOf i = .diagUnrecognized b') :
    b = b' ∧ isMovOpcode b = false := by
  obtain rfl := (recordOf_eq_diagUnrecognized i b').1 hrecord
  have hclass : classify b = .unrecognized := (decode_instrClass b bs rest _ h).symm
  cases (decode_unrecognized b bs hclass).symm.trans h
  exact ⟨rfl, (classify_unrecognized b).1 hclass⟩

/-! ## The two ways a step ends -/

/-- What is decoded at CURSOR lies below LEN. -/
theorem decode_fetchBytes_fits (s : State) (b : Byte) (bs rest : List Byte) (i : Instr)
    (hfetch : fetchBytes s = b :: bs) (h : decode (b :: bs) = .ok (i, rest)) :
    s.cursor + instrLength i ≤ s.len := by
  have hread : memRead8 s s.cursor = some b := (fetchBytes_cons s b).1 ⟨bs, hfetch⟩
  have hbelow := readRun_length_le s maxInstrLength s.cursor (memRead8_some s _ _ hread).1.le
  have hlength := decode_length b bs rest i h
  rw [← fetchBytes, hfetch, List.length_cons] at hbelow
  omega

/-- A step has an opcode byte, and either the instruction decoded there completes, or the bytes end
inside an instruction of the table and the truncation event is taken (R75). -/
theorem step_completes_or_truncates (s t : State) (h : step s = .next t) :
    ∃ b bs, fetchBytes s = b :: bs ∧
      ((∃ i rest, decode (b :: bs) = .ok (i, rest) ∧
          t = advance (s.cursor + instrLength i) (emit (recordOf i) s)) ∨
        ∃ c k, decode (b :: bs) = .error (.truncated c k) ∧ isMovOpcode b = true ∧
          t = takeEvent .truncated (s.cursor + c) s) := by
  obtain ⟨-, hcases⟩ := step_next_cases s t h
  cases hfetch : fetchBytes s with
  | nil => simp [hfetch, decode] at hcases
  | cons b bs =>
    rw [hfetch] at hcases
    refine ⟨b, bs, rfl, ?_⟩
    obtain ⟨i, rest, hdecode, hexec⟩ | ⟨c, k, hdecode, -, rfl⟩ := hcases
    · have hfits := decode_fetchBytes_fits s b bs rest i hfetch hdecode
      cases hexec.symm.trans (exec_completesWith i s hfits)
      exact .inl ⟨i, rest, hdecode, rfl⟩
    · exact .inr ⟨c, k, hdecode, (decode_error b bs _ hdecode).1, rfl⟩

/-! ## The obligation -/

/-- Settles O20, by the two ways a step ends: one that completes leaves STATUS other than TRUNC, and
its record is a diagnostic exactly where the opcode byte is outside the table; one that truncates has an
opcode byte of the table and appends only the truncation diagnostic. -/
theorem eventsArePrecise : Obligations.EventsArePrecise := by
  intro s t h
  obtain ⟨b, bs, hfetch, hcases⟩ := step_completes_or_truncates s t h
  have hread : memRead8 s s.cursor = some b := (fetchBytes_cons s b).1 ⟨bs, hfetch⟩
  rw [hfetch, hread]
  obtain ⟨i, rest, hdecode, rfl⟩ | ⟨c, k, hdecode, hmov, rfl⟩ := hcases
  · have hstatus : (advance (s.cursor + instrLength i) (emit (recordOf i) s)).status ≠ .trunc :=
      statusAt_ne_trunc _ _
    refine ⟨?_, ?_, fun htrunc => absurd htrunc hstatus, ?_, ?_⟩
    · rintro _ ⟨⟩ hb
      cases (decode_unrecognized b bs ((classify_unrecognized b).2 hb)).symm.trans hdecode
      rfl
    · simpa [hdecode] using hstatus
    · intro b' hmem
      have hrecord : recordOf i = .diagUnrecognized b' := by simpa [eq_comm] using hmem
      obtain ⟨rfl, hb⟩ := decode_diagUnrecognized b b' bs rest i hdecode hrecord
      exact ⟨rfl, hb⟩
    · intro hmem
      have hrecord : recordOf i = .diagTruncated := by simpa [eq_comm] using hmem
      exact absurd hrecord (recordOf_ne_diagTruncated i)
  · refine ⟨?_, by simp [hdecode], fun _ => ⟨⟨b, rfl, hmov⟩, rfl⟩, ?_, fun _ => rfl⟩
    · rintro b' ⟨⟩ hb
      simp [hmov] at hb
    · intro b' hmem
      simp [eventRecord] at hmem

end Sys2Proof.Machine
end

section
/-! PROOF. Decoding and encoding are inverse to each other (30_encoding.md sections 1 and 3). -/

namespace Sys2Proof

/-! ## Fields, read and written -/

theorem take16_ok_iff (n : Nat) (bs rest : List Byte) (v : Word) :
    take16 n bs = .ok (v, rest) ↔ wordBytes v ++ rest = bs := by
  constructor
  · intro h
    obtain ⟨lo, hi, rfl, rfl⟩ := (take16_ok n bs v rest).1 h
    rw [wordBytes_littleEndian]
    rfl
  · rintro rfl
    exact take16_wordBytes n v rest

theorem takeModRm_ok_iff (bs rest : List Byte) (reg : Index) (rm : RmForm) :
    takeModRm bs = .ok ((reg, rm), rest) ↔ rm.wf = true ∧ encodeRm reg rm ++ rest = bs := by
  constructor
  · exact takeModRm_encode bs rest reg rm
  · rintro ⟨hwf, rfl⟩
    exact takeModRm_encodeRm reg rm rest hwf

/-! ## What each class decodes to, in both directions -/

theorem decodeAcc_ok_iff (mk : Word → Instr) (bs rest : List Byte) (i : Instr) :
    decodeAcc mk bs = .ok (i, rest) ↔ ∃ a, wordBytes a ++ rest = bs ∧ i = mk a := by
  constructor
  · intro h
    obtain ⟨a, haddr, rfl⟩ := Machine.map_field_ok _ _ _ _ h
    exact ⟨a, (take16_ok_iff _ _ _ _).1 haddr, rfl⟩
  · rintro ⟨a, rfl, rfl⟩
    rw [decodeAcc, take16_wordBytes]
    rfl

theorem decodeImmRm8_ok_iff (bs rest : List Byte) (i : Instr) :
    decodeImmRm8 bs = .ok (i, rest) ↔
      ∃ reg rm v, takeModRm bs = .ok ((reg, rm), v :: rest) ∧ i = .movRm8Imm8 rm reg v := by
  constructor
  · intro h
    unfold decodeImmRm8 at h
    split at h
    · cases h
    · rename_i reg rm rest' hmodRm
      obtain ⟨v, himm, rfl⟩ := Machine.map_field_ok _ _ _ _ h
      rw [take8_ok] at himm
      exact ⟨reg, rm, v, himm ▸ hmodRm, rfl⟩
  · rintro ⟨reg, rm, v, hmodRm, rfl⟩
    rw [decodeImmRm8, hmodRm]
    rfl

theorem decodeImmRm16_ok_iff (bs rest : List Byte) (i : Instr) :
    decodeImmRm16 bs = .ok (i, rest) ↔
      ∃ reg rm v, takeModRm bs = .ok ((reg, rm), wordBytes v ++ rest) ∧
        i = .movRm16Imm16 rm reg v := by
  constructor
  · intro h
    unfold decodeImmRm16 at h
    split at h
    · cases h
    · rename_i reg rm rest' hmodRm
      obtain ⟨v, himm, rfl⟩ := Machine.map_field_ok _ _ _ _ h
      rw [take16_ok_iff] at himm
      exact ⟨reg, rm, v, himm ▸ hmodRm, rfl⟩
  · rintro ⟨reg, rm, v, hmodRm, rfl⟩
    simp only [decodeImmRm16, hmodRm, take16_wordBytes]
    rfl

theorem decodeRmReg_ok_iff (d w : Bool) (bs rest : List Byte) (i : Instr) :
    decodeRmReg d w bs = .ok (i, rest) ↔
      ∃ reg rm, takeModRm bs = .ok ((reg, rm), rest) ∧ i = rmRegInstr d w reg rm := by
  constructor
  · intro h
    obtain ⟨⟨⟨reg, rm⟩, rest'⟩, hmodRm, hp⟩ := (map_ok _ _ _).1 h
    cases hp
    exact ⟨reg, rm, hmodRm, by cases d <;> cases w <;> rfl⟩
  · rintro ⟨reg, rm, hmodRm, rfl⟩
    rw [decodeRmReg, hmodRm]
    cases d <;> cases w <;> rfl

/-! ## The encoding of each class -/

theorem encode_rmRegInstr (b : Byte) (d w : Bool) (reg : Index) (rm : RmForm)
    (hc : classify b = .rmReg d w) : encode (rmRegInstr d w reg rm) = b :: encodeRm reg rm := by
  rw [(classify_rmReg b d w).1 hc]
  cases d <;> cases w <;> rfl

theorem rmRegInstr_wf (d w : Bool) (reg : Index) (rm : RmForm) :
    (rmRegInstr d w reg rm).wf = rm.wf := by
  cases d <;> cases w <;> rfl

/-- The encoding of a row of format RMREG reads back. -/
theorem decode_encodeRm (b : Byte) (d w : Bool) (reg : Index) (rm : RmForm) (rest : List Byte)
    (hc : classify b = .rmReg d w) (hwf : rm.wf = true) :
    decode (b :: (encodeRm reg rm ++ rest)) = .ok (rmRegInstr d w reg rm, rest) :=
  decode_rmReg b _ rest d w reg rm hc (takeModRm_encodeRm reg rm rest hwf)

/-! ## The two directions -/

theorem decode_encode (i : Instr) (rest : List Byte) (hwf : i.wf = true) :
    decode (encode i ++ rest) = .ok (i, rest) := by
  cases i with
  | movRm8R8 rm reg => exact decode_encodeRm 0x88 false false reg rm rest rfl hwf
  | movRm16R16 rm reg => exact decode_encodeRm 0x89 false true reg rm rest rfl hwf
  | movR8Rm8 reg rm => exact decode_encodeRm 0x8A true false reg rm rest rfl hwf
  | movR16Rm16 reg rm => exact decode_encodeRm 0x8B true true reg rm rest rfl hwf
  | movAxAddr a => exact (decodeAcc_ok_iff .movAxAddr _ _ _).2 ⟨a, rfl, rfl⟩
  | movAddrAx a => exact (decodeAcc_ok_iff .movAddrAx _ _ _).2 ⟨a, rfl, rfl⟩
  | movR8Imm8 r v =>
    have hc := (classify_immReg8 (0b10110#5 ++ r)).2 (by rw [opcReg_immReg8])
    exact (Machine.decode_immReg8 _ _ _ _ hc).2 ⟨v, rfl, by rw [opcReg_immReg8]⟩
  | movR16Imm16 r v =>
    have hc := (classify_immReg16 (0b10111#5 ++ r)).2 (by rw [opcReg_immReg16])
    exact (Machine.decode_immReg16 _ _ _ _ hc).2
      ⟨_, _, rfl, by rw [opcReg_immReg16, littleEndian_wordBytes]⟩
  | movRm8Imm8 rm reg v =>
    rw [encode, List.cons_append, List.append_assoc]
    exact (decodeImmRm8_ok_iff _ _ _).2 ⟨reg, rm, v, takeModRm_encodeRm reg rm _ hwf, rfl⟩
  | movRm16Imm16 rm reg v =>
    rw [encode, List.cons_append, List.append_assoc]
    exact (decodeImmRm16_ok_iff _ _ _).2 ⟨reg, rm, v, takeModRm_encodeRm reg rm _ hwf, rfl⟩
  | unrecognized b =>
    exact decode_unrecognized b rest ((classify_unrecognized b).2 (by simpa [Instr.wf] using hwf))

theorem encode_of_decode_cons (b : Byte) (bs rest : List Byte) (i : Instr)
    (h : decode (b :: bs) = .ok (i, rest)) : i.wf = true ∧ encode i ++ rest = b :: bs := by
  cases hc : classify b with
  | accLoad =>
    rw [decode, hc, decodeAcc_ok_iff] at h
    obtain ⟨a, rfl, rfl⟩ := h
    exact ⟨rfl, by rw [(classify_accLoad b).1 hc]; rfl⟩
  | accStore =>
    rw [decode, hc, decodeAcc_ok_iff] at h
    obtain ⟨a, rfl, rfl⟩ := h
    exact ⟨rfl, by rw [(classify_accStore b).1 hc]; rfl⟩
  | immReg8 =>
    obtain ⟨v, rfl, rfl⟩ := (Machine.decode_immReg8 b bs rest i hc).1 h
    exact ⟨rfl, by rw [encode, ← (classify_immReg8 b).1 hc]; rfl⟩
  | immReg16 =>
    obtain ⟨lo, hi, rfl, rfl⟩ := (Machine.decode_immReg16 b bs rest i hc).1 h
    exact ⟨rfl, by rw [encode, ← (classify_immReg16 b).1 hc, wordBytes_littleEndian]; rfl⟩
  | immRm8 =>
    rw [decode, hc] at h
    obtain ⟨reg, rm, v, hmodRm, rfl⟩ := (decodeImmRm8_ok_iff _ _ _).1 h
    obtain ⟨hwf, rfl⟩ := (takeModRm_ok_iff _ _ _ _).1 hmodRm
    exact ⟨hwf, by rw [(classify_immRm8 b).1 hc]; simp [encode]⟩
  | immRm16 =>
    rw [decode, hc] at h
    obtain ⟨reg, rm, v, hmodRm, rfl⟩ := (decodeImmRm16_ok_iff _ _ _).1 h
    obtain ⟨hwf, rfl⟩ := (takeModRm_ok_iff _ _ _ _).1 hmodRm
    exact ⟨hwf, by rw [(classify_immRm16 b).1 hc]; simp [encode]⟩
  | rmReg d w =>
    rw [decode, hc] at h
    obtain ⟨reg, rm, hmodRm, rfl⟩ := (decodeRmReg_ok_iff _ _ _ _ _).1 h
    obtain ⟨hwf, rfl⟩ := (takeModRm_ok_iff _ _ _ _).1 hmodRm
    exact ⟨by rw [rmRegInstr_wf, hwf], by rw [encode_rmRegInstr b d w reg rm hc]; rfl⟩
  | unrecognized =>
    cases (decode_unrecognized b bs hc).symm.trans h
    exact ⟨by simp [Instr.wf, (classify_unrecognized b).1 hc], rfl⟩

theorem encode_of_decode (bs rest : List Byte) (i : Instr) (h : decode bs = .ok (i, rest)) :
    i.wf = true ∧ encode i ++ rest = bs := by
  cases bs with
  | nil => cases h
  | cons b bs => exact encode_of_decode_cons b bs rest i h

/-- The encoding is as long as the instruction, and 1 to 6 bytes long (R76). -/
theorem encodedLength (i : Instr) : Laws.EncodedLength.Statement i := by
  cases i with
  | movRm8R8 rm reg => exact Laws.EncodedLength.movRm8R8 rm reg
  | movRm16R16 rm reg => exact Laws.EncodedLength.movRm16R16 rm reg
  | movR8Rm8 reg rm => exact Laws.EncodedLength.movR8Rm8 reg rm
  | movR16Rm16 reg rm => exact Laws.EncodedLength.movR16Rm16 reg rm
  | movAxAddr a => exact Laws.EncodedLength.movAxAddr a
  | movAddrAx a => exact Laws.EncodedLength.movAddrAx a
  | movR8Imm8 r v => exact Laws.EncodedLength.movR8Imm8 r v
  | movR16Imm16 r v => exact Laws.EncodedLength.movR16Imm16 r v
  | movRm8Imm8 rm reg v => exact Laws.EncodedLength.movRm8Imm8 rm reg v
  | movRm16Imm16 rm reg v => exact Laws.EncodedLength.movRm16Imm16 rm reg v
  | unrecognized b => exact Laws.EncodedLength.unrecognized b

/-! ## The parts of an encoding -/

@[simp] theorem dispBytes_le_two (rm : RmForm) : dispBytes rm ≤ 2 := by
  cases rm <;> simp [dispBytes]

/-- A form's bytes are its one ModRM byte and its displacement or address (R60, R78). -/
theorem encodeRm_split (reg : Index) (rm : RmForm) :
    ∃ modrm disp, encodeRm reg rm = modrm :: disp ∧ disp.length = dispBytes rm := by
  cases rm with
  | register r => exact ⟨_, [], rfl, rfl⟩
  | base r => exact ⟨_, [], rfl, rfl⟩
  | baseDisp8 r d => exact ⟨_, [d], rfl, rfl⟩
  | baseDisp16 r d => exact ⟨_, wordBytes d, rfl, rfl⟩
  | directAddress a => exact ⟨_, wordBytes a, rfl, rfl⟩

@[simp] theorem wordBytes_length (v : Word) : (wordBytes v).length = 2 := rfl

/-! ## The lengths of the rows with a ModRM byte (R76) -/

@[simp] theorem instrLength_movRm8R8 (rm : RmForm) (reg : Index) :
    instrLength (.movRm8R8 rm reg) = 2 + dispBytes rm := by
  simp [instrLength, fieldBytes]
  omega

@[simp] theorem instrLength_movRm16R16 (rm : RmForm) (reg : Index) :
    instrLength (.movRm16R16 rm reg) = 2 + dispBytes rm := by
  simp [instrLength, fieldBytes]
  omega

@[simp] theorem instrLength_movR8Rm8 (rm : RmForm) (reg : Index) :
    instrLength (.movR8Rm8 reg rm) = 2 + dispBytes rm := by
  simp [instrLength, fieldBytes]
  omega

@[simp] theorem instrLength_movR16Rm16 (rm : RmForm) (reg : Index) :
    instrLength (.movR16Rm16 reg rm) = 2 + dispBytes rm := by
  simp [instrLength, fieldBytes]
  omega

@[simp] theorem instrLength_movRm8Imm8 (rm : RmForm) (reg : Index) (v : Byte) :
    instrLength (.movRm8Imm8 rm reg v) = 3 + dispBytes rm := by
  simp [instrLength, fieldBytes]
  omega

@[simp] theorem instrLength_movRm16Imm16 (rm : RmForm) (reg : Index) (v : Word) :
    instrLength (.movRm16Imm16 rm reg v) = 4 + dispBytes rm := by
  simp [instrLength, fieldBytes]
  omega

/-! ## The obligations -/

/-- Settles O1, by the rows of the instruction: each format's fields read back. -/
theorem decodeOfEncode : Obligations.DecodeOfEncode := decode_encode

/-- Settles O2, by the class of the opcode byte: each format writes its fields as it read them. -/
theorem encodeOfDecode : Obligations.EncodeOfDecode := encode_of_decode

/-- Settles O3: the bytes consumed are the instruction's encoding, whose parts its row names. -/
theorem fieldsInFixedOrder : Obligations.FieldsInFixedOrder := by
  intro bs rest i h
  obtain ⟨-, rfl⟩ := encode_of_decode bs rest i h
  clear h
  cases i with
  | movAxAddr a => exact ⟨0xA1, [], wordBytes a, [], by simp [encode, instrLength, fieldBytes]⟩
  | movAddrAx a => exact ⟨0xA3, [], wordBytes a, [], by simp [encode, instrLength, fieldBytes]⟩
  | movR8Imm8 r v =>
    exact ⟨0b10110#5 ++ r, [], [], [v], by simp [encode, instrLength, fieldBytes]⟩
  | movR16Imm16 r v =>
    exact ⟨0b10111#5 ++ r, [], [], wordBytes v, by simp [encode, instrLength, fieldBytes]⟩
  | movRm8R8 rm reg =>
    obtain ⟨modrm, disp, hbytes, hdisp⟩ := encodeRm_split reg rm
    exact ⟨0x88, [modrm], disp, [], by simp [encode, fieldBytes, hbytes, hdisp]⟩
  | movRm16R16 rm reg =>
    obtain ⟨modrm, disp, hbytes, hdisp⟩ := encodeRm_split reg rm
    exact ⟨0x89, [modrm], disp, [], by simp [encode, fieldBytes, hbytes, hdisp]⟩
  | movR8Rm8 reg rm =>
    obtain ⟨modrm, disp, hbytes, hdisp⟩ := encodeRm_split reg rm
    exact ⟨0x8A, [modrm], disp, [], by simp [encode, fieldBytes, hbytes, hdisp]⟩
  | movR16Rm16 reg rm =>
    obtain ⟨modrm, disp, hbytes, hdisp⟩ := encodeRm_split reg rm
    exact ⟨0x8B, [modrm], disp, [], by simp [encode, fieldBytes, hbytes, hdisp]⟩
  | movRm8Imm8 rm reg v =>
    obtain ⟨modrm, disp, hbytes, hdisp⟩ := encodeRm_split reg rm
    exact ⟨0xC6, [modrm], disp, [v],
      by simp [encode, fieldBytes, hbytes, hdisp, Nat.add_right_comm]⟩
  | movRm16Imm16 rm reg v =>
    obtain ⟨modrm, disp, hbytes, hdisp⟩ := encodeRm_split reg rm
    exact ⟨0xC7, [modrm], disp, wordBytes v,
      by simp [encode, fieldBytes, hbytes, hdisp, Nat.add_right_comm]⟩
  | unrecognized b => exact ⟨b, [], [], [], by simp [encode, instrLength, fieldBytes]⟩

/-! ## The ignored field of 0xC6 and 0xC7 -/

/-- Only `mod` and `rm` of a ModRM byte decide the form and what is consumed (R77). -/
theorem takeModRm_congr (m m' : Byte) (bs rest : List Byte) (reg : Index) (rm : RmForm)
    (hmod : modField m = modField m') (hrm : rmField m = rmField m')
    (h : takeModRm (m :: bs) = .ok ((reg, rm), rest)) :
    takeModRm (m' :: bs) = .ok ((regField m', rm), rest) := by
  obtain ⟨⟨form, _⟩, hform, ⟨⟩⟩ := (map_ok _ (takeRm (modField m) (rmField m) 2 bs) _).1 h
  rw [hmod, hrm] at hform
  exact (map_ok _ (takeRm (modField m') (rmField m') 2 bs) _).2 ⟨_, hform, rfl⟩

/-- Settles O6: both rows decode with the other ModRM byte's `reg` field, which no meaning reads. -/
theorem sizedMovIgnoresRegField : Obligations.SizedMovIgnoresRegField := by
  rintro opc m m' bs rest i (rfl | rfl) hmod hrm h
  · obtain ⟨reg, rm, v, hmodRm, rfl⟩ := (decodeImmRm8_ok_iff _ _ _).1 h
    have hmodRm' := takeModRm_congr m m' bs _ reg rm hmod hrm hmodRm
    exact ⟨_, (decodeImmRm8_ok_iff _ _ _).2 ⟨_, _, v, hmodRm', rfl⟩, fun _ => rfl⟩
  · obtain ⟨reg, rm, v, hmodRm, rfl⟩ := (decodeImmRm16_ok_iff _ _ _).1 h
    have hmodRm' := takeModRm_congr m m' bs _ reg rm hmod hrm hmodRm
    exact ⟨_, (decodeImmRm16_ok_iff _ _ _).2 ⟨_, _, v, hmodRm', rfl⟩, fun _ => rfl⟩

/-- Settles O5, by running the decoder on the seven words. -/
theorem writtenWordsDecode : Obligations.WrittenWordsDecode := by
  unfold Obligations.WrittenWordsDecode
  decide

end Sys2Proof
end

section
/-! PROOF. What a step does in every state: its two ways to end, its frame and what it reads
(30_encoding.md R75, 10_state.md section 6). -/

namespace Sys2Proof.Machine

/-! ## A step by what is decoded at CURSOR -/

/-- Every meaning answers a next state. -/
theorem exec_next (i : Instr) (s : State) : ∃ t, exec i s = .next t := by
  rw [exec_eq_runBody]
  obtain h | ⟨_, -, h⟩ := runBody_cases (fieldBytes i) (recordOf i) s <;> exact ⟨_, h⟩

theorem exec_completes (i : Instr) (s : State) (h : s.cursor + instrLength i ≤ s.len) :
    exec i s = .next (advance (s.cursor + instrLength i) (emit (recordOf i) s)) :=
  exec_completesWith i s h

theorem step_of_decode (s : State) (i : Instr) (rest : List Byte) (hrun : s.status = .run)
    (h : decode (fetchBytes s) = .ok (i, rest)) : step s = exec i s := by
  simp [step, hrun, h]

/-- What is decoded at CURSOR lies below LEN. -/
theorem decoded_fits (s : State) (i : Instr) (rest : List Byte)
    (h : decode (fetchBytes s) = .ok (i, rest)) : s.cursor + instrLength i ≤ s.len := by
  cases hfetch : fetchBytes s with
  | nil => simp [hfetch, decode] at h
  | cons b bs =>
    rw [hfetch] at h
    exact decode_fetchBytes_fits s b bs rest i hfetch h

/-- In RUN the instruction decoded at CURSOR completes. -/
theorem step_completes (s : State) (i : Instr) (rest : List Byte) (hrun : s.status = .run)
    (h : decode (fetchBytes s) = .ok (i, rest)) :
    step s = .next (advance (s.cursor + instrLength i) (emit (recordOf i) s)) := by
  rw [step_of_decode s i rest hrun h, exec_completes i s (decoded_fits s i rest h)]

/-- Where the bytes at CURSOR end inside an instruction, the failing check lies past the opcode byte
and not past LEN, and the missing field passes the bytes fetched. -/
theorem truncated_bounds (s : State) (c k : Nat)
    (h : decode (fetchBytes s) = .error (.truncated c k)) :
    1 ≤ c ∧ c ≤ maxInstrLength ∧ s.cursor + c ≤ s.len ∧ (fetchBytes s).length < c + k ∧
      c + k ≤ maxInstrLength := by
  cases hfetch : fetchBytes s with
  | nil => simp [hfetch, decode] at h
  | cons b bs =>
    have hread : memRead8 s s.cursor = some b := (fetchBytes_cons s b).1 ⟨bs, hfetch⟩
    have hbelow := readRun_length_le s maxInstrLength s.cursor (memRead8_some s _ _ hread).1.le
    rw [← fetchBytes, hfetch, List.length_cons] at hbelow
    rw [hfetch] at h
    obtain ⟨-, _, _, ⟨⟩, hpos, hle, hshort, hmax⟩ := decode_error b bs _ h
    simp only [maxInstrLength, List.length_cons]
    omega

/-- Everything a step that answers a next state can be: from RUN, either the instruction decoded at
CURSOR completes below LEN, or the bytes end inside an instruction and the truncation event is
taken. -/
theorem step_outcome (s t : State) (h : step s = .next t) :
    s.status = .run ∧
      ((∃ i rest, decode (fetchBytes s) = .ok (i, rest) ∧ s.cursor + instrLength i ≤ s.len ∧
          t = advance (s.cursor + instrLength i) (emit (recordOf i) s)) ∨
        ∃ c k, decode (fetchBytes s) = .error (.truncated c k) ∧ s.len - (s.cursor + c) < k ∧
          t = takeEvent .truncated (s.cursor + c) s) := by
  obtain ⟨hrun, ⟨i, rest, hdecode, -⟩ | hcase⟩ := step_next_cases s t h
  · cases (step_completes s i rest hrun hdecode).symm.trans h
    exact ⟨hrun, .inl ⟨i, rest, hdecode, decoded_fits s i rest hdecode, rfl⟩⟩
  · exact ⟨hrun, .inr hcase⟩

/-- Settles O21: the step hands over what it decodes. -/
theorem stepRunsTheDecodedInstruction : Obligations.StepRunsTheDecodedInstruction :=
  step_of_decode

/-- Settles O18: the event is the whole step, and it leaves a state in which none is enabled. -/
theorem truncationStopsTheRun : Obligations.TruncationStopsTheRun := fun s c k hrun hd hshort =>
  ⟨takeEvent .truncated (s.cursor + c) s, step_truncated s c k hrun hd hshort, rfl, rfl⟩

/-- A step that does not decode stops by another fault than `runEnded`. -/
theorem rejectStep_ne_runEnded (e : DecodeError) (s : State) :
    rejectStep e s ≠ .fault .runEnded := by
  cases e <;> simp only [rejectStep] <;> split <;> simp

/-- Settles O27: in RUN a step is a meaning, which answers a next state, or a rejection. -/
theorem terminalStatusHasNoStep : Obligations.TerminalStatusHasNoStep := by
  intro s
  cases hs : s.status with
  | done => simp [step, hs]
  | trunc => simp [step, hs]
  | run =>
    cases hd : decode (fetchBytes s) with
    | ok p =>
      obtain ⟨t, ht⟩ := exec_next p.1 s
      simp [step, hs, hd, ht]
    | error e => simp [step, hs, hd, rejectStep_ne_runEnded]

/-! ## The frame -/

theorem instrLength_bounds (i : Instr) : 1 ≤ instrLength i ∧ instrLength i ≤ maxInstrLength :=
  (encodedLength i).2

/-- An unrecognized byte is never truncated: it has no field after its opcode. -/
theorem exec_unrecognized (b : Byte) (s : State) :
    exec (.unrecognized b) s =
      .next (advance (s.cursor + 1) (emit (.diagUnrecognized b) s)) := rfl

/-- Settles O23: every meaning is the shared body, which ends in its record or in the truncation
event; for an unrecognized byte the body never truncates, since it ends with another STATUS. -/
theorem execFrame : Obligations.ExecFrame := by
  intro i s
  obtain ⟨t, h⟩ := exec_next i s
  obtain ⟨hbuf, hlen, -⟩ := exec_appends i s t h
  suffices hrecord : ∃ r, t.out = s.out ++ [r] ∧ (r = recordOf i ∨ r = .diagTruncated) ∧
      ∀ b, i = .unrecognized b → r = recordOf i by
    obtain ⟨r, hout, hr⟩ := hrecord
    exact ⟨t, r, h, hbuf, hlen, memRead8_congr s t hbuf hlen, hout, hr⟩
  have hbody := exec_eq_runBody i s
  obtain hend | ⟨c, -, hend⟩ := runBody_cases (fieldBytes i) (recordOf i) s
  · cases h.symm.trans (hbody.trans hend)
    exact ⟨recordOf i, rfl, .inl rfl, fun _ _ => rfl⟩
  · cases h.symm.trans (hbody.trans hend)
    refine ⟨.diagTruncated, rfl, .inr rfl, ?_⟩
    rintro b rfl
    have hsame := Host.Outcome.next.inj ((exec_unrecognized b s).symm.trans h)
    exact absurd (congrArg State.status hsame) (statusAt_ne_trunc _ _)

/-- Settles O24: a completed instruction is well-formed, so its record is legal. -/
theorem stepFrame : Obligations.StepFrame := by
  intro s t h
  obtain ⟨hbuf, hlen, -⟩ := step_appends s t h
  refine ⟨hbuf, hlen, memRead8_congr s t hbuf hlen, ?_⟩
  obtain ⟨-, ⟨i, rest, hdecode, -, rfl⟩ | ⟨c, k, -, -, rfl⟩⟩ := step_outcome s t h
  · exact ⟨recordOf i, rfl, recordOf_legal i (encode_of_decode _ _ _ hdecode).1⟩
  · exact ⟨.diagTruncated, rfl, rfl⟩

/-- Settles O25: an instruction is 1 to 6 bytes long, and a failing check lies within them. -/
theorem cursorAdvances : Obligations.CursorAdvances := by
  intro s t h
  obtain ⟨-, ⟨i, rest, -, hfits, rfl⟩ | ⟨c, k, hdecode, -, rfl⟩⟩ := step_outcome s t h
  · have := instrLength_bounds i
    simp only [maxInstrLength, advance_cursor, advance_len, emit_len] at this ⊢
    omega
  · have := truncated_bounds s c k hdecode
    simp only [maxInstrLength, takeEvent_cursor, takeEvent_len] at this ⊢
    omega

/-- Settles O26: completion writes STATUS by LEN and no diagnostic, truncation writes TRUNC and its
diagnostic. -/
theorem statusAfterStep : Obligations.StatusAfterStep := by
  intro s t h
  obtain ⟨-, ⟨i, rest, -, hfits, rfl⟩ | ⟨c, k, -, -, rfl⟩⟩ := step_outcome s t h
  · have hne := statusAt_ne_trunc (s.cursor + instrLength i) s.len
    refine ⟨by simp [hne, recordOf_ne_diagTruncated], fun _ => ⟨statusAt_eq_done _ _, ?_⟩⟩
    rw [advance_status, statusAt_eq_run]
    exact ⟨hfits.lt_of_ne, ne_of_lt⟩
  · exact ⟨iff_of_true rfl rfl, fun hne => absurd rfl hne⟩

/-! ## What a step reads -/

/-- Fetching depends on the reads of its window only. -/
theorem readRun_congr (s t : State) (n a : Nat)
    (h : ∀ k, k < n → memRead8 t (a + k) = memRead8 s (a + k)) : readRun t n a = readRun s n a := by
  induction n generalizing a with
  | zero => rfl
  | succ n ih =>
    have hhead : memRead8 t a = memRead8 s a := h 0 (Nat.succ_pos n)
    have htail := ih (a + 1) fun k hk => by
      simpa [Nat.add_assoc, Nat.add_comm 1] using h (k + 1) (Nat.succ_lt_succ hk)
    rw [readRun, readRun, hhead, htail]

/-- With another buffer that fetches the same bytes and with any other history, a step appends the
same record and does the same to CURSOR and STATUS. -/
theorem step_rebase (s t : State) (m : Memory) (o : List Record) (h : step s = .next t)
    (hfetch : fetchBytes { s with buf := m, out := o } = fetchBytes s) :
    ∃ r, t.out = s.out ++ [r] ∧
      step { s with buf := m, out := o } = .next { t with buf := m, out := o ++ [r] } := by
  obtain ⟨hrun, ⟨i, rest, hdecode, -, rfl⟩ | ⟨c, k, hdecode, hshort, rfl⟩⟩ := step_outcome s t h <;>
    rw [← hfetch] at hdecode
  · exact ⟨recordOf i, rfl, step_completes { s with buf := m, out := o } i rest hrun hdecode⟩
  · exact ⟨.diagTruncated, rfl,
      step_truncated { s with buf := m, out := o } c k hrun hdecode hshort⟩

/-- Settles O28: the bytes fetched are those of the window below LEN, and nothing else is read. -/
theorem stepReadsOnlyItsWindow : Obligations.StepReadsOnlyItsWindow := by
  intro s t m hwindow h
  have hfetch : fetchBytes { s with buf := m } = fetchBytes s := by
    refine readRun_congr s { s with buf := m } maxInstrLength s.cursor fun k hk => ?_
    by_cases hlen : s.cursor + k < s.len
    · rw [memRead8_below _ _ hlen, memRead8_below { s with buf := m } _ hlen]
      exact hwindow _ (Nat.le_add_right _ _) (Nat.add_lt_add_left hk _) hlen
    · rw [memRead8_not_below _ _ (Nat.not_lt.1 hlen),
        memRead8_not_below { s with buf := m } _ (Nat.not_lt.1 hlen)]
  obtain ⟨r, hout, hstep⟩ := step_rebase s t m s.out h hfetch
  rwa [← hout] at hstep

/-- Settles O29: fetching does not read OUT. -/
theorem stepIgnoresHistory : Obligations.StepIgnoresHistory := by
  intro s t o h
  have hfetch : fetchBytes { s with out := o } = fetchBytes s :=
    readRun_congr s { s with out := o } maxInstrLength s.cursor fun _ _ => rfl
  obtain ⟨r, hout, hstep⟩ := step_rebase s t s.buf o h hfetch
  refine ⟨r, hout, hstep.trans ?_⟩
  rw [← (step_appends s t h).buf]

/-! ## Instructions placed in the buffer -/

/-- Bytes that stand at CURSOR are the first ones fetched. -/
theorem fetchBytes_append (s : State) (bs : List Byte) (hlen : bs.length ≤ maxInstrLength)
    (h : ∀ k, k < bs.length → memRead8 s (s.cursor + k) = bs[k]?) :
    ∃ rest, fetchBytes s = bs ++ rest := ⟨_, readRun_append s _ _ bs hlen h⟩

/-- The encoding at CURSOR of a well-formed instruction is what is decoded there. -/
theorem decode_fetchBytes_encode (s : State) (i : Instr) (hwf : i.wf = true)
    (h : ∀ k, k < (encode i).length → memRead8 s (s.cursor + k) = (encode i)[k]?) :
    ∃ rest, decode (fetchBytes s) = .ok (i, rest) := by
  obtain ⟨hlen, -, hmax⟩ := encodedLength i
  obtain ⟨rest, hfetch⟩ := fetchBytes_append s (encode i) (hlen ▸ hmax) h
  exact ⟨rest, by rw [hfetch, decode_encode i rest hwf]⟩

/-- Settles O22: the encoding decodes to its instruction, which fits below LEN. -/
theorem stepRunsTheEncodedInstruction : Obligations.StepRunsTheEncodedInstruction := by
  intro s i hrun hwf h
  obtain ⟨rest, hdecode⟩ := decode_fetchBytes_encode s i hwf h
  have hfits := decoded_fits s i rest hdecode
  exact ⟨step_of_decode s i rest hrun hdecode, hfits, exec_completes i s hfits⟩

/-- A read of two bytes is a read of each, the low one first. -/
theorem memRead16_eq_some (s : State) (a : Nat) (v : Word) :
    memRead16 s a = some v ↔
      ∃ lo hi, memRead8 s a = some lo ∧ memRead8 s (a + 1) = some hi ∧ littleEndian lo hi = v := by
  unfold memRead16
  cases memRead8 s a <;> cases memRead8 s (a + 1) <;> simp

/-- Settles O40, from the two byte reads. -/
theorem memReadIsLittleEndian : Obligations.MemReadIsLittleEndian := fun s a =>
  ⟨memRead8_below s a, fun lo hi hlo hhi =>
    ⟨littleEndian lo hi, (memRead16_eq_some s a _).2 ⟨lo, hi, hlo, hhi, rfl⟩,
      littleEndian_toNat lo hi⟩⟩

/-- An opcode byte at CURSOR and a word after it are fetched as these three bytes. -/
theorem fetchBytes_opcode_word (s : State) (b : Byte) (v : Word)
    (hb : memRead8 s s.cursor = some b) (hv : memRead16 s (s.cursor + 1) = some v) :
    ∃ rest, fetchBytes s = b :: (wordBytes v ++ rest) := by
  obtain ⟨lo, hi, hlo, hhi, rfl⟩ := (memRead16_eq_some s _ v).1 hv
  rw [wordBytes_littleEndian]
  refine fetchBytes_append s [b, lo, hi] (by simp [maxInstrLength]) fun k hk => ?_
  match k, hk with
  | 0, _ => exact hb
  | 1, _ => exact hlo
  | 2, _ => exact hhi

/-- Settles O41: the opcode byte and the word after it are the instruction's encoding. -/
theorem addressFieldIsMemRead : Obligations.AddressFieldIsMemRead := by
  intro s a hrun haddr
  refine ⟨fun hb => ?_, fun hb => ?_⟩
  · obtain ⟨rest, hfetch⟩ := fetchBytes_opcode_word s _ a hb haddr
    refine step_of_decode s _ rest hrun ?_
    rw [hfetch]
    exact decode_encode (.movAxAddr a) rest rfl
  · obtain ⟨rest, hfetch⟩ := fetchBytes_opcode_word s _ a hb haddr
    refine step_of_decode s _ rest hrun ?_
    rw [hfetch]
    exact decode_encode (.movAddrAx a) rest rfl

/-- As many bytes as the longest instruction has always hold one. -/
theorem decode_of_maxInstrLength (bs : List Byte) (h : bs.length = maxInstrLength) :
    ∃ i rest, decode bs = .ok (i, rest) := by
  cases bs with
  | nil => cases h
  | cons b bs =>
    cases hd : decode (b :: bs) with
    | ok p => exact ⟨p.1, p.2, rfl⟩
    | error e =>
      obtain ⟨-, c, k, -, -, -, hshort, hmax⟩ := decode_error b bs e hd
      simp only [List.length_cons, maxInstrLength] at h
      omega

/-- Placed bytes are what is fetched next. -/
theorem fetchBytes_placeAtCursor (s : State) (bs : List Byte) (h : bs.length = maxInstrLength) :
    fetchBytes (placeAtCursor s bs) = bs := by
  have hread := readRun_append (placeAtCursor s bs) maxInstrLength s.cursor bs h.le fun k hk => by
    rw [memRead8_below _ _ (by simp; omega), placeAtCursor_buf, read_writeBytes_at _ _ _ _ hk]
  rw [fetchBytes, placeAtCursor_cursor, hread, h, Nat.sub_self, readRun, List.append_nil]

/-- Settles O30: six placed bytes hold an instruction, and the next step fetches them. -/
theorem placedWordIsRun : Obligations.PlacedWordIsRun := by
  intro s nbits w
  have hlen : (tableBytes nbits w).length = maxInstrLength := by simp [tableBytes]
  obtain ⟨i, rest, hdecode⟩ := decode_of_maxInstrLength _ hlen
  refine ⟨i, by rw [decodeTableWord, hdecode], (encode_of_decode _ _ _ hdecode).1, ?_⟩
  rw [← fetchBytes_placeAtCursor s _ hlen] at hdecode
  exact step_completes (s.withFetchWord nbits w) i rest rfl hdecode

end Sys2Proof.Machine
end

section
/-! PROOF. The instructions one by one: encoding, effect and truncation (30_encoding.md section 4,
40 to 43, 60_exceptions.md R141). -/

namespace Sys2Proof.Machine

/-! ## Values of fields -/

theorem byte_toInt_range (v : Byte) : -128 ≤ v.toInt ∧ v.toInt ≤ 127 := by
  have := BitVec.le_toInt (x := v)
  have := BitVec.toInt_lt (x := v)
  omega

theorem word_toInt_range (v : Word) : -32768 ≤ v.toInt ∧ v.toInt ≤ 32767 := by
  have := BitVec.le_toInt (x := v)
  have := BitVec.toInt_lt (x := v)
  omega

theorem byte_signExtend_toInt (v : Byte) : (v.signExtend 16).toInt = v.toInt :=
  BitVec.toInt_signExtend_of_le (by decide)

/-- Two bytes are the field of their little-endian pair. -/
theorem byte_pair (lo hi : Byte) (rest : List Byte) :
    lo :: hi :: rest = wordBytes (littleEndian lo hi) ++ rest := by
  rw [wordBytes_littleEndian]
  rfl

/-! ## Truncation -/

/-- The checks stop at the first field that is not all there. -/
theorem consume_short (pre post : List Nat) (n len cur : Nat) (hle : cur + pre.sum ≤ len)
    (hshort : len < cur + pre.sum + n) :
    consume (pre ++ n :: post) len cur = .error (cur + pre.sum) := by
  induction pre generalizing cur with
  | nil => exact if_pos (by simp at hle hshort; omega)
  | cons k ks ih =>
    simp only [List.sum_cons] at hle hshort ⊢
    rw [List.cons_append, consume, if_neg (by omega), ih _ (by omega) (by omega), Nat.add_assoc]

/-- An instruction truncates at each of its fields: where the fields before it are there and it is
not (R143, R144). -/
theorem truncatesAt_field (i : Instr) (pre post : List Nat) (n : Nat)
    (hfields : fieldBytes i = pre ++ n :: post) :
    TruncatesAt i (1 + pre.sum) (1 + pre.sum + n) := by
  intro s hle hshort
  rw [exec_eq_runBody, hfields, runBody, consume_short pre post n _ _ (by omega) (by omega),
    Nat.add_assoc]

/-! ## Addressing modes -/

/-- Settles O7: the forms read back from their encodings, and `resolveRm` takes each to its
operand. -/
theorem addressingModes : Obligations.AddressingModes := by
  intro reg rm w d lo hi rest
  have hread := fun form (hwf : RmForm.wf form = true) => takeModRm_encodeRm reg form rest hwf
  have hbytes : wordBytes (hi ++ lo) = [lo, hi] := wordBytes_littleEndian lo hi
  have hdirect := hread (.directAddress (hi ++ lo)) rfl
  have hdisp16 := hread (.baseDisp16 rm (hi ++ lo)) rfl
  simp only [encodeRm, hbytes] at hdirect hdisp16
  have hbase : rm ≠ 0b110 → (RmForm.base rm).wf = true := by simp [RmForm.wf]
  refine ⟨hread (.register rm) rfl, rfl, fun hrm => hread (.base rm) (hbase hrm), rfl, hdirect,
    rfl, hread (.baseDisp8 rm d) rfl, ⟨d.signExtend 16, rfl, ?_⟩, hdisp16,
    ⟨hi ++ lo, rfl, littleEndian_toNat lo hi, word_toInt_range _⟩, rfl, rfl⟩
  rw [byte_signExtend_toInt]
  exact ⟨rfl, byte_toInt_range d⟩

/-! ## The instructions -/

/-- Settles O8: both rows are the opcode and the address's two bytes, one field. -/
theorem accumulatorMov : Obligations.AccumulatorMov := by
  intro lo hi a rest
  rw [byte_pair lo hi rest]
  exact ⟨decode_encode (.movAxAddr (littleEndian lo hi)) rest rfl,
    decode_encode (.movAddrAx (littleEndian lo hi)) rest rfl,
    exec_completesWith (.movAxAddr a), exec_completesWith (.movAddrAx a),
    truncatesAt_field (.movAxAddr a) [] [] 2 rfl, truncatesAt_field (.movAddrAx a) [] [] 2 rfl⟩

theorem opcReg_immReg8_toNat (b : Byte) (hlo : 0xB0 ≤ b.toNat) (hhi : b.toNat ≤ 0xB7) :
    (opcReg b).toNat = b.toNat - 0xB0 := by
  revert b
  decide

theorem opcReg_immReg16_toNat (b : Byte) (hlo : 0xB8 ≤ b.toNat) (hhi : b.toNat ≤ 0xBF) :
    (opcReg b).toNat = b.toNat - 0xB8 := by
  revert b
  decide

/-- Settles O9: the row is the opcode, which holds the register, and one immediate byte. -/
theorem byteImmediateToRegister : Obligations.ByteImmediateToRegister := by
  intro opc i rest hlo hhi
  have hclass := (classify_immReg8_range opc).2 ⟨hlo, hhi⟩
  obtain ⟨hmin, hmax⟩ := byte_toInt_range i
  exact ⟨opcReg opc, opcReg_immReg8_toNat opc hlo hhi,
    (decode_immReg8 opc _ _ _ hclass).2 ⟨i, rfl, rfl⟩, exec_completesWith (.movR8Imm8 _ i),
    (byte_signExtend_toInt i).symm, hmin, hmax, truncatesAt_field (.movR8Imm8 _ i) [] [] 1 rfl⟩

/-- Settles O10: the row is the opcode, which holds the register, and one immediate word. -/
theorem wordImmediateToRegister : Obligations.WordImmediateToRegister := by
  intro opc lo hi rest hlo hhi
  have hclass := (classify_immReg16_range opc).2 ⟨hlo, hhi⟩
  obtain ⟨hmin, hmax⟩ := word_toInt_range (littleEndian lo hi)
  exact ⟨opcReg opc, littleEndian lo hi, opcReg_immReg16_toNat opc hlo hhi,
    littleEndian_toNat lo hi, (decode_immReg16 opc _ _ _ hclass).2 ⟨lo, hi, rfl, rfl⟩, 
    exec_completesWith (.movR16Imm16 _ _), hmin, hmax,
    truncatesAt_field (.movR16Imm16 _ _) [] [] 2 rfl⟩

/-- A row whose first two fields are a ModRM byte and its displacement truncates at either. -/
theorem truncatesAt_modRm (i : Instr) (n : Nat) (post : List Nat)
    (hfields : fieldBytes i = 1 :: n :: post) : TruncatesAt i 1 2 ∧ TruncatesAt i 2 (2 + n) :=
  ⟨truncatesAt_field i [] (n :: post) 1 hfields, truncatesAt_field i [1] post n hfields⟩

/-- A row with an immediate of `n` bytes after a displacement of `d` truncates at the immediate. -/
theorem truncatesAt_modRm_imm (i : Instr) (d n : Nat) (hfields : fieldBytes i = [1, d, n]) :
    TruncatesAt i (2 + d) (2 + d + n) := by
  have h := truncatesAt_field i [1, d] [] n hfields
  rwa [show 1 + [1, d].sum = 2 + d by simp; omega] at h

/-- Completion by a length and a record that are the instruction's own. -/
theorem completesWith_of_eq (i : Instr) (n : Nat) (hn : instrLength i = n) :
    CompletesWith i n (recordOf i) := hn ▸ exec_completesWith i

/-- Settles O12: the row has three fields after the opcode, and truncates at each of them. -/
theorem byteImmediateToRm : Obligations.ByteImmediateToRm := by
  intro m i bs rest reg rm hmodRm
  obtain ⟨hmin, hmax⟩ := byte_toInt_range i
  obtain ⟨hshort1, hshort2⟩ := truncatesAt_modRm (.movRm8Imm8 rm reg i) (dispBytes rm) [1] rfl
  have hshort3 := truncatesAt_modRm_imm (.movRm8Imm8 rm reg i) (dispBytes rm) 1 rfl
  rw [Nat.add_right_comm] at hshort3
  exact ⟨(decodeImmRm8_ok_iff _ _ _).2 ⟨reg, rm, i, hmodRm, rfl⟩,
    completesWith_of_eq _ _ (instrLength_movRm8Imm8 rm reg i), hmin, hmax, hshort1, hshort2,
    hshort3⟩

/-- Settles O13, as O12 with an immediate of two bytes. -/
theorem wordImmediateToRm : Obligations.WordImmediateToRm := by
  intro m lo hi bs rest reg rm hmodRm
  obtain ⟨hmin, hmax⟩ := word_toInt_range (littleEndian lo hi)
  rw [byte_pair lo hi rest] at hmodRm
  obtain ⟨hshort1, hshort2⟩ :=
    truncatesAt_modRm (.movRm16Imm16 rm reg (littleEndian lo hi)) (dispBytes rm) [2] rfl
  have hshort3 :=
    truncatesAt_modRm_imm (.movRm16Imm16 rm reg (littleEndian lo hi)) (dispBytes rm) 2 rfl
  rw [Nat.add_right_comm] at hshort3
  exact ⟨littleEndian lo hi, littleEndian_toNat lo hi,
    (decodeImmRm16_ok_iff _ _ _).2 ⟨reg, rm, _, hmodRm, rfl⟩,
    completesWith_of_eq _ _ (instrLength_movRm16Imm16 rm reg _), hmin, hmax, hshort1, hshort2,
    hshort3⟩

/-- Settles O15: the four rows share the format RMREG, and truncate at either of its two fields. -/
theorem registerMemoryMov : Obligations.RegisterMemoryMov := by
  intro reg rm
  refine ⟨fun m bs rest hmodRm => ?_, completesWith_of_eq _ _ (instrLength_movRm8R8 rm reg),
    completesWith_of_eq _ _ (instrLength_movRm16R16 rm reg),
    completesWith_of_eq _ _ (instrLength_movR8Rm8 rm reg),
    completesWith_of_eq _ _ (instrLength_movR16Rm16 rm reg), ?_⟩
  · have hdecode := fun b d w hc => decode_rmReg b (m :: bs) rest d w reg rm hc hmodRm
    exact ⟨hdecode 0x88 false false rfl, hdecode 0x89 false true rfl, hdecode 0x8A true false rfl,
      hdecode 0x8B true true rfl⟩
  · have hfields : ∀ i ∈ [Instr.movRm8R8 rm reg, .movRm16R16 rm reg, .movR8Rm8 reg rm,
        .movR16Rm16 reg rm], fieldBytes i = [1, dispBytes rm] := by simp [fieldBytes]
    exact fun i hi => truncatesAt_modRm i (dispBytes rm) [] (hfields i hi)

/-- Settles O17: the fallback row is one byte long and has no field to be short of. -/
theorem unrecognizedByteSkipped : Obligations.UnrecognizedByteSkipped := by
  refine fun b => ⟨exec_completesWith (.unrecognized b), fun s hrun hb hread => ?_⟩
  obtain ⟨rest, hfetch⟩ := (fetchBytes_cons s b).2 hread
  refine step_completes s (.unrecognized b) rest hrun ?_
  rw [hfetch, decode_unrecognized b rest ((classify_unrecognized b).2 hb)]

end Sys2Proof.Machine
end

section
/-! PROOF. The invariant of a run, from reset on, and that every run ends (10_state.md section 2,
70_reset_and_hazards.md section 1). -/

namespace Sys2Proof.Machine

/-! ## Reset -/

/-- A loaded input is the bytes at their indices, and nothing else. -/
theorem memRead8_resetBytes (bs : List Byte) (a : Nat) : memRead8 (resetBytes bs) a = bs[a]? := by
  by_cases h : a < bs.length
  · have hread := read_writeBytes_at [] 0 a bs h
    rw [Nat.zero_add] at hread
    exact (memRead8_below (resetBytes bs) a h).trans hread
  · rw [memRead8_not_below _ _ (Nat.not_lt.1 h), List.getElem?_eq_none (Nat.not_lt.1 h)]

/-- The host hands over exactly the bytes of the input (R163). -/
theorem resetBytes_bufferWhole (bs : List Byte) : BufferWhole (resetBytes bs) where
  canonical := resetBytes_wf bs
  below c hc := by
    obtain ⟨-, hlt⟩ | hold := mem_writeBytes [] 0 bs c hc
    · rwa [Nat.zero_add] at hlt
    · cases hold
  whole a ha := by
    rw [← memRead8_below (resetBytes bs) a ha, memRead8_resetBytes]
    exact Option.isSome_iff_exists.2 ⟨_, List.getElem?_eq_getElem ha⟩

theorem resetBytes_inv (bs : List Byte) : Inv (resetBytes bs) where
  buffer := resetBytes_bufferWhole bs
  cursor_le := Nat.zero_le _
  run_below h := Nat.pos_of_ne_zero (Ne.symm ((statusAt_eq_run 0 bs.length).1 h))
  done_at_end h := (statusAt_eq_done 0 bs.length).1 h
  header := rfl
  legal _ h := by cases h
  one_truncation := (if_neg (statusAt_ne_trunc 0 bs.length)).symm
  truncation_last h := absurd h (statusAt_ne_trunc 0 bs.length)

/-- Settles O31: `State.reset` is the reset with the empty input loaded. -/
theorem invariantAtReset : Obligations.InvariantAtReset := ⟨resetBytes_inv [], Nat.zero_le _⟩

/-- Settles O32, from the laws of the host's load. -/
theorem resetOnAnyInput : Obligations.ResetOnAnyInput := by
  refine ⟨rfl, fun bs => ⟨resetBytes_inv bs, rfl, rfl, rfl, ?_, memRead8_resetBytes bs⟩⟩
  cases bs <;> rfl

/-! ## Steps keep the invariant -/

/-- The host's duty is about the buffer and LEN only. -/
theorem BufferWhole.congr {s t : State} (h : BufferWhole s) (hbuf : t.buf = s.buf)
    (hlen : t.len = s.len) : BufferWhole t :=
  ⟨hbuf ▸ h.canonical, hbuf ▸ hlen ▸ h.below, hbuf ▸ hlen ▸ h.whole⟩

/-- The header is whole at every point of a run. -/
theorem Inv.two_le_length {s : State} (h : Inv s) : 2 ≤ s.out.length := by
  have hlen := congrArg List.length h.header
  rw [List.length_take] at hlen
  exact min_eq_left_iff.1 hlen

theorem Inv.header_append {s : State} (h : Inv s) (r : Record) :
    (s.out ++ [r]).take 2 = [.header, .blank] := by
  rw [List.take_append_of_le_length h.two_le_length, h.header]

theorem Inv.legal_append {s : State} (h : Inv s) (r : Record) (hr : recordLegal r = true) :
    ∀ r' ∈ (s.out ++ [r]).drop 2, recordLegal r' = true := by
  rw [List.drop_append_of_le_length h.two_le_length]
  intro r' hmem
  obtain hmem | hmem := List.mem_append.1 hmem
  · exact h.legal r' hmem
  · rwa [List.mem_singleton.1 hmem]

/-- No diagnostic of a truncation stands in OUT before the step that truncates. -/
theorem Inv.no_truncation {s : State} (h : Inv s) (hrun : s.status = .run) :
    s.out.count .diagTruncated = 0 := by
  rw [h.one_truncation, hrun]
  rfl

theorem Inv.complete {s : State} (h : Inv s) (hrun : s.status = .run) (i : Instr)
    (hwf : i.wf = true) (hfits : s.cursor + instrLength i ≤ s.len) :
    Inv (advance (s.cursor + instrLength i) (emit (recordOf i) s)) where
  buffer := h.buffer.congr rfl rfl
  cursor_le := hfits
  run_below hst := hfits.lt_of_ne ((statusAt_eq_run _ _).1 hst)
  done_at_end hst := (statusAt_eq_done _ _).1 hst
  header := h.header_append _
  legal := h.legal_append _ (recordOf_legal i hwf)
  one_truncation := by
    have hne : statusAt (s.cursor + instrLength i) s.len ≠ .trunc := statusAt_ne_trunc _ _
    simp [h.no_truncation hrun, hne, recordOf_ne_diagTruncated]
  truncation_last hst := absurd hst (statusAt_ne_trunc _ _)

theorem Inv.truncate {s : State} (h : Inv s) (hrun : s.status = .run) (c : Nat)
    (hle : s.cursor + c ≤ s.len) : Inv (takeEvent .truncated (s.cursor + c) s) where
  buffer := h.buffer.congr rfl rfl
  cursor_le := hle
  run_below hst := by cases hst
  done_at_end hst := by cases hst
  header := h.header_append _
  legal := h.legal_append .diagTruncated rfl
  one_truncation := by simp [h.no_truncation hrun, eventRecord]
  truncation_last _ := by simp [eventRecord]

theorem step_keeps_inv (s t : State) (h : Inv s) (hstep : step s = .next t) : Inv t := by
  obtain ⟨hrun, ⟨i, rest, hdecode, hfits, rfl⟩ | ⟨c, k, hdecode, -, rfl⟩⟩ := step_outcome s t hstep
  · exact h.complete hrun i (encode_of_decode _ _ _ hdecode).1 hfits
  · obtain ⟨-, -, hle, -, -⟩ := truncated_bounds s c k hdecode
    exact h.truncate hrun c hle

/-- Settles O33: a completed instruction and a truncation each keep every part of the invariant. -/
theorem stepKeepsInvariant : Obligations.StepKeepsInvariant := step_keeps_inv

/-! ## A state of a run is never stuck -/

/-- In a state of a run, as many bytes are fetched as lie below LEN, but for the longest length. -/
theorem Inv.fetchBytes_length {s : State} (h : Inv s) :
    (fetchBytes s).length = min maxInstrLength (s.len - s.cursor) :=
  readRun_length s h.buffer.whole _ _

/-- Where the bytes end inside an instruction, they are all the bytes left below LEN, and the
missing field passes it. -/
theorem Inv.truncated_short {s : State} (h : Inv s) (c k : Nat)
    (hdecode : decode (fetchBytes s) = .error (.truncated c k)) :
    (fetchBytes s).length = s.len - s.cursor ∧ s.len - (s.cursor + c) < k := by
  obtain ⟨-, -, hle, hshort, hmax⟩ := truncated_bounds s c k hdecode
  have hlen := h.fetchBytes_length
  omega

/-- In RUN a state of a run has an opcode byte. -/
theorem Inv.fetchBytes_ne_nil {s : State} (h : Inv s) (hrun : s.status = .run) :
    fetchBytes s ≠ [] := by
  have hlen := h.fetchBytes_length
  have hbelow := h.run_below hrun
  rw [← List.length_pos_iff, hlen, maxInstrLength]
  omega

theorem Inv.step_next {s : State} (h : Inv s) (hrun : s.status = .run) :
    ∃ t, step s = .next t := by
  cases hdecode : decode (fetchBytes s) with
  | ok p => exact ⟨_, step_completes s p.1 p.2 hrun hdecode⟩
  | error e =>
    cases e with
    | noOpcode =>
      obtain ⟨b, bs, hfetch⟩ := List.exists_cons_of_ne_nil (h.fetchBytes_ne_nil hrun)
      rw [hfetch] at hdecode
      obtain ⟨-, _, _, ⟨⟩, -⟩ := decode_error b bs _ hdecode
    | truncated c k =>
      exact ⟨_, step_truncated s c k hrun hdecode (h.truncated_short c k hdecode).2⟩

/-- Settles O34: in RUN the step answers a next state, and in DONE and TRUNC the run has ended. -/
theorem runningStateSteps : Obligations.RunningStateSteps := by
  intro s h
  have hiff : s.status = .run ↔ ∃ t, step s = .next t :=
    ⟨h.step_next, fun ⟨t, ht⟩ => (step_outcome s t ht).1⟩
  refine ⟨?_, hiff⟩
  cases hs : s.status with
  | run =>
    obtain ⟨t, ht⟩ := hiff.1 hs
    rw [ht]
    trivial
  | done =>
    rw [(terminalStatusHasNoStep s).1 (.inl hs)]
    rfl
  | trunc =>
    rw [(terminalStatusHasNoStep s).1 (.inr hs)]
    rfl

/-! ## Every run ends -/

/-- As many steps as bytes are left reach a state that is not in RUN. -/
theorem runs_to_end (n : Nat) (s : State) (h : Inv s) (hn : s.len - s.cursor ≤ n) :
    ∃ k t, k ≤ n ∧ runSteps k s = .next t ∧ t.status ≠ .run ∧ Inv t := by
  induction n generalizing s with
  | zero =>
    refine ⟨0, s, le_refl 0, rfl, fun hrun => ?_, h⟩
    have := h.run_below hrun
    omega
  | succ n ih =>
    by_cases hrun : s.status = .run
    · obtain ⟨u, hu⟩ := h.step_next hrun
      have hadvance := (cursorAdvances s u hu).1
      have hlen := (step_appends s u hu).len
      obtain ⟨k, t, hk, hruns, hend⟩ := ih u (step_keeps_inv s u h hu) (by omega)
      exact ⟨k + 1, t, Nat.succ_le_succ hk, (runSteps_succ k s t).2 ⟨u, hu, hruns⟩, hend⟩
    · exact ⟨0, s, Nat.zero_le _, rfl, hrun, h⟩

/-- Settles O35, by induction on the bytes left, of which each step takes at least one. -/
theorem everyRunEnds : Obligations.EveryRunEnds := fun s h => runs_to_end _ s h (le_refl _)

end Sys2Proof.Machine
end

section
/-! PROOF. When a step truncates, and where it leaves CURSOR then (30_encoding.md R76,
60_exceptions.md R143). -/

namespace Sys2Proof.Machine

/-! ## The displacement that a ModRM byte declares -/

/-- The form that is read has as many displacement or address bytes as `mod` and `rm` say (R78). -/
theorem takeModRm_dispBytes (m : Byte) (bs rest : List Byte) (reg : Index) (rm : RmForm)
    (h : takeModRm (m :: bs) = .ok ((reg, rm), rest)) : dispBytes rm = modRmDisp m := by
  obtain ⟨hwf, hbytes⟩ := (takeModRm_ok_iff _ _ _ _).1 h
  cases rm with
  | base r =>
    obtain ⟨rfl, -⟩ := List.cons.inj hbytes
    have hr : ¬r = 6#3 := by simpa [RmForm.wf] using hwf
    simp [modRmDisp, modRmByte_split, dispBytes, hr]
  | _ =>
    obtain ⟨rfl, -⟩ := List.cons.inj hbytes
    simp [modRmDisp, modRmByte_split, dispBytes]

/-- After a ModRM byte only its displacement or address can be short (R143). -/
theorem takeModRm_cons_error (m : Byte) (bs : List Byte) (e : DecodeError)
    (h : takeModRm (m :: bs) = .error e) :
    e = .truncated 2 (modRmDisp m) ∧ bs.length < modRmDisp m := by
  have herror := (map_error _ (takeRm (modField m) (rmField m) 2 bs) e).1 h
  have hmod : modField m ≠ 0b11 → modField m ≠ 0b01 → modField m ≠ 0b10 → modField m = 0b00 := by
    clear h herror
    revert m
    decide
  unfold takeRm at herror
  split_ifs at herror with h11 h01 h10 h110
  · rw [map_error, take8_error] at herror
    simp [modRmDisp, h01, herror]
  · rw [map_error, take16_error] at herror
    simp [modRmDisp, h10, herror]
  · rw [map_error, take16_error] at herror
    simp [modRmDisp, hmod h11 h01 h10, h110, herror]

/-! ## The declared length and the failing check -/

/-- The place of R143 where an instruction of which `n` bytes remain truncates, counted from its
start: `decode_error_failingCheck` ties it to the decoder. -/
def failingCheck (opc m : Byte) (n : Nat) : Nat :=
  match classify opc with
  | .accLoad => 1
  | .accStore => 1
  | .immReg8 => 1
  | .immReg16 => 1
  | .immRm8 => if n < 2 then 1 else if n < 2 + modRmDisp m then 2 else 2 + modRmDisp m
  | .immRm16 => if n < 2 then 1 else if n < 2 + modRmDisp m then 2 else 2 + modRmDisp m
  | .rmReg _ _ => if n < 2 then 1 else 2
  | .unrecognized => 1

section
variable (opc m : Byte) (bs : List Byte) (hm : ∀ b ∈ bs.head?, b = m)
include hm

/-- `m` stands for the ModRM byte, and is it wherever there is a byte after the opcode. -/
theorem takeModRm_head_dispBytes (rest : List Byte) (reg : Index) (rm : RmForm)
    (h : takeModRm bs = .ok ((reg, rm), rest)) : dispBytes rm = modRmDisp m := by
  cases bs with
  | nil => cases h
  | cons b bs =>
    obtain rfl := hm b rfl
    exact takeModRm_dispBytes b bs rest reg rm h

theorem takeModRm_head_error (c k : Nat) (h : takeModRm bs = .error (.truncated c k)) :
    bs.length < 1 + modRmDisp m ∧ c = if bs.length + 1 < 2 then 1 else 2 := by
  cases bs with
  | nil =>
    cases h
    exact ⟨by simp, rfl⟩
  | cons b bs =>
    obtain rfl := hm b rfl
    obtain ⟨⟨⟩, hshort⟩ := takeModRm_cons_error b bs _ h
    simp only [List.length_cons]
    exact ⟨by omega, by simp⟩

/-- An instruction that decodes has the declared length (R76). -/
theorem decode_declaredLength (rest : List Byte) (i : Instr)
    (h : decode (opc :: bs) = .ok (i, rest)) : declaredLength opc m = instrLength i := by
  rw [declaredLength]
  cases hc : classify opc with
  | accLoad =>
    rw [decode, hc] at h
    obtain ⟨a, -, rfl⟩ := (decodeAcc_ok_iff _ _ _ _).1 h
    rfl
  | accStore =>
    rw [decode, hc] at h
    obtain ⟨a, -, rfl⟩ := (decodeAcc_ok_iff _ _ _ _).1 h
    rfl
  | immReg8 =>
    obtain ⟨v, -, rfl⟩ := (decode_immReg8 opc bs rest i hc).1 h
    rfl
  | immReg16 =>
    obtain ⟨lo, hi, -, rfl⟩ := (decode_immReg16 opc bs rest i hc).1 h
    rfl
  | immRm8 =>
    rw [decode, hc] at h
    obtain ⟨reg, rm, v, hmodRm, rfl⟩ := (decodeImmRm8_ok_iff _ _ _).1 h
    simp [takeModRm_head_dispBytes m bs hm _ _ _ hmodRm]
  | immRm16 =>
    rw [decode, hc] at h
    obtain ⟨reg, rm, v, hmodRm, rfl⟩ := (decodeImmRm16_ok_iff _ _ _).1 h
    simp [takeModRm_head_dispBytes m bs hm _ _ _ hmodRm]
  | rmReg d w =>
    rw [decode, hc] at h
    obtain ⟨reg, rm, hmodRm, rfl⟩ := (decodeRmReg_ok_iff _ _ _ _ _).1 h
    have hdisp := takeModRm_head_dispBytes m bs hm _ _ _ hmodRm
    cases d <;> cases w <;> simp [rmRegInstr, hdisp]
  | unrecognized =>
    cases (decode_unrecognized opc bs hc).symm.trans h
    rfl

/-- Bytes that end inside an instruction are fewer than its declared length, and the failing check
is that of the table. -/
theorem decode_error_failingCheck (c k : Nat)
    (h : decode (opc :: bs) = .error (.truncated c k)) :
    bs.length + 1 < declaredLength opc m ∧ c = failingCheck opc m (bs.length + 1) := by
  rw [declaredLength, failingCheck]
  rw [decode] at h
  cases hc : classify opc with
  | accLoad =>
    simp only [hc, decodeAcc, map_error, take16_error] at h
    obtain ⟨hshort, ⟨⟩⟩ := h
    exact ⟨by simp; omega, rfl⟩
  | accStore =>
    simp only [hc, decodeAcc, map_error, take16_error] at h
    obtain ⟨hshort, ⟨⟩⟩ := h
    exact ⟨by simp; omega, rfl⟩
  | immReg8 =>
    simp only [hc, decodeImmReg8, map_error, take8_error] at h
    obtain ⟨rfl, ⟨⟩⟩ := h
    exact ⟨by simp, rfl⟩
  | immReg16 =>
    simp only [hc, decodeImmReg16, map_error, take16_error] at h
    obtain ⟨hshort, ⟨⟩⟩ := h
    exact ⟨by simp; omega, rfl⟩
  | immRm8 =>
    simp only [hc, decodeImmRm8] at h
    split at h
    · rename_i hmodRm
      cases h
      obtain ⟨hshort, rfl⟩ := takeModRm_head_error m bs hm c k hmodRm
      simp only
      split_ifs <;> omega
    · rename_i hmodRm
      simp only [map_error, take8_error] at h
      obtain ⟨rfl, ⟨⟩⟩ := h
      have hlen := takeModRm_length _ _ _ _ hmodRm
      have hdisp := takeModRm_head_dispBytes m bs hm _ _ _ hmodRm
      simp only [List.length_nil] at hlen ⊢
      split_ifs <;> omega
  | immRm16 =>
    simp only [hc, decodeImmRm16] at h
    split at h
    · rename_i hmodRm
      cases h
      obtain ⟨hshort, rfl⟩ := takeModRm_head_error m bs hm c k hmodRm
      simp only
      split_ifs <;> omega
    · rename_i hmodRm
      simp only [map_error, take16_error] at h
      obtain ⟨hshort, ⟨⟩⟩ := h
      have hlen := takeModRm_length _ _ _ _ hmodRm
      have hdisp := takeModRm_head_dispBytes m bs hm _ _ _ hmodRm
      simp only
      split_ifs <;> omega
  | rmReg d w =>
    simp only [hc, decodeRmReg, map_error] at h
    obtain ⟨hshort, rfl⟩ := takeModRm_head_error m bs hm c k h
    exact ⟨by simp only; omega, rfl⟩
  | unrecognized => simp [hc] at h

end

/-! ## The places of the failing check by the opcode's value -/

theorem failingCheck_noModRm (opc m : Byte) (n : Nat)
    (h : opc.toNat = 0xA1 ∨ opc.toNat = 0xA3 ∨ 0xB0 ≤ opc.toNat ∧ opc.toNat ≤ 0xBF) :
    failingCheck opc m n = 1 := by
  have hclass : classify opc = .accLoad ∨ classify opc = .accStore ∨ classify opc = .immReg8 ∨
      classify opc = .immReg16 := by
    clear m n
    revert opc
    decide
  obtain hc | hc | hc | hc := hclass <;> rw [failingCheck, hc]

theorem failingCheck_rmReg (opc m : Byte) (n : Nat) (hlo : 0x88 ≤ opc.toNat)
    (hhi : opc.toNat ≤ 0x8B) : failingCheck opc m n = if n < 2 then 1 else 2 := by
  rw [failingCheck, classify_rmReg_bits opc hlo hhi]

theorem failingCheck_immRm (opc m : Byte) (n : Nat) (h : opc.toNat = 0xC6 ∨ opc.toNat = 0xC7) :
    failingCheck opc m n =
      if n < 2 then 1 else if n < 2 + modRmDisp m then 2 else 2 + modRmDisp m := by
  have hclass : classify opc = .immRm8 ∨ classify opc = .immRm16 := by
    clear m n
    revert opc
    decide
  obtain hc | hc := hclass <;> rw [failingCheck, hc]

/-! ## The obligation -/

/-- The second byte fetched is the byte after CURSOR. -/
theorem fetchBytes_second (s : State) (b b' : Byte) (bs : List Byte)
    (hfetch : fetchBytes s = b :: bs) (h : b' ∈ bs.head?) :
    memRead8 s (s.cursor + 1) = some b' := by
  refine (readRun_getElem s maxInstrLength s.cursor 1 b' ?_).2
  rw [← fetchBytes, hfetch]
  simpa [List.head?_eq_getElem?] using h

/-- Settles O19: a step that completes consumes the declared length, and one that truncates has
fewer bytes and stops at the failing check of R143. -/
theorem truncatesExactlyWhenShort : Obligations.TruncatesExactlyWhenShort := by
  intro s opc m hinv hrun hread hm
  obtain ⟨bs, hfetch⟩ := (fetchBytes_cons s opc).2 hread
  have hhead : ∀ b ∈ bs.head?, b = m := by
    intro b hb
    have hsecond := fetchBytes_second s opc b bs hfetch hb
    exact Option.some.inj (hsecond.symm.trans (hm (memRead8_some _ _ _ hsecond).1))
  obtain ⟨t, ht⟩ := hinv.step_next hrun
  refine ⟨t, ht, ?_⟩
  obtain ⟨-, ⟨i, rest, hdecode, hfits, rfl⟩ | ⟨c, k, hdecode, -, rfl⟩⟩ := step_outcome s t ht
  · rw [hfetch] at hdecode
    have hlen := decode_declaredLength opc m bs hhead rest i hdecode
    have hne : statusAt (s.cursor + instrLength i) s.len ≠ .trunc := statusAt_ne_trunc _ _
    rw [hlen]
    exact ⟨iff_of_false hne (by omega), fun _ => rfl, fun h => absurd h hne⟩
  · have hn := (hinv.truncated_short c k hdecode).1
    rw [hfetch] at hdecode hn
    obtain ⟨hshort, rfl⟩ := decode_error_failingCheck opc m bs hhead c k hdecode
    rw [← List.length_cons (a := opc), hn] at hshort
    rw [← List.length_cons (a := opc), hn, takeEvent_cursor]
    refine ⟨iff_of_true rfl hshort, fun h => absurd rfl h, fun _ => ⟨?_, ?_, ?_⟩⟩ <;> intro h
    · rw [failingCheck_noModRm opc m _ h]
    · rw [failingCheck_rmReg opc m _ h.1 h.2]
    · rw [failingCheck_immRm opc m _ h]

end Sys2Proof.Machine
end

section
/-! PROOF. The run of a loaded input against the contract `decodeAll` (10_state.md R31, R32), and
the bytes that its records account for (70_reset_and_hazards.md R165). -/

namespace Sys2Proof.Machine

/-! ## States over a loaded input -/

/-- The buffer of `s` holds exactly the bytes of the input. -/
structure Holds (bs : List Byte) (s : State) : Prop where
  len : s.len = bs.length
  read : ∀ a, memRead8 s a = bs[a]?

theorem resetBytes_holds (bs : List Byte) : Holds bs (resetBytes bs) :=
  ⟨rfl, memRead8_resetBytes bs⟩

/-- Steps and runs only append records. -/
theorem Holds.appends {bs : List Byte} {k : Nat} {s t : State} (h : Holds bs s)
    (happ : Appends k s t) : Holds bs t := by
  obtain ⟨hbuf, hlen, -⟩ := happ
  exact ⟨hlen.trans h.len, fun a => (memRead8_congr s t hbuf hlen a).trans (h.read a)⟩

/-- What is fetched from index `a` on is the input from there on. -/
theorem Holds.readRun {bs : List Byte} {s : State} (h : Holds bs s) (n a : Nat) :
    readRun s n a = (bs.drop a).take n := by
  induction n generalizing a with
  | zero => rfl
  | succ n ih =>
    rw [Machine.readRun, h.read]
    by_cases ha : a < bs.length
    · rw [List.getElem?_eq_getElem ha, List.drop_eq_getElem_cons ha]
      exact congrArg _ (ih (a + 1))
    · rw [List.getElem?_eq_none (Nat.not_lt.1 ha), List.drop_eq_nil_of_le (Nat.not_lt.1 ha)]
      rfl

theorem Holds.fetchBytes {bs : List Byte} {s : State} (h : Holds bs s) :
    fetchBytes s = (bs.drop s.cursor).take maxInstrLength := h.readRun _ _

/-- Bytes after those fetched do not matter to the decoder: what is decoded at CURSOR is at the
front of the input from CURSOR on, and what follows it there is the input past it. -/
theorem Holds.decode_ok {bs : List Byte} {s : State} (h : Holds bs s) (i : Instr)
    (rest : List Byte) (hdecode : decode (Machine.fetchBytes s) = .ok (i, rest)) :
    bs.drop s.cursor = encode i ++ bs.drop (s.cursor + instrLength i) ∧
      decode (bs.drop s.cursor) = .ok (i, bs.drop (s.cursor + instrLength i)) := by
  obtain ⟨hwf, hbytes⟩ := encode_of_decode _ _ _ hdecode
  have hfront : bs.drop s.cursor =
      encode i ++ (rest ++ (bs.drop s.cursor).drop maxInstrLength) := by
    rw [← List.append_assoc, hbytes, h.fetchBytes, List.take_append_drop]
  have hrest : bs.drop (s.cursor + instrLength i) =
      rest ++ (bs.drop s.cursor).drop maxInstrLength := by
    rw [← List.drop_drop, ← (encodedLength i).1, hfront, List.drop_left, ← hfront]
  rw [hrest, ← hfront]
  exact ⟨rfl, by rw [hfront, decode_encode i _ hwf, ← hfront]⟩

/-- Where the bytes end inside an instruction, all bytes left were fetched. -/
theorem Holds.decode_truncated {bs : List Byte} {s : State} (h : Holds bs s) (c k : Nat)
    (hdecode : decode (Machine.fetchBytes s) = .error (.truncated c k)) :
    decode (bs.drop s.cursor) = .error (.truncated c k) := by
  obtain ⟨-, -, -, hshort, hmax⟩ := truncated_bounds s c k hdecode
  rw [h.fetchBytes] at hdecode hshort
  rw [List.length_take] at hshort
  rwa [List.take_of_length_le (by omega)] at hdecode

/-! ## The contract -/

theorem decodeLines_nil (fuel : Nat) : decodeLines fuel [] = [] := by
  cases fuel <;> rfl

theorem decodeLines_ok (fuel : Nat) (bs rest : List Byte) (i : Instr)
    (h : decode bs = .ok (i, rest)) :
    decodeLines (fuel + 1) bs = recordOf i :: decodeLines fuel rest := by
  rw [decodeLines, h]

theorem decodeLines_truncated (fuel : Nat) (bs : List Byte) (c k : Nat)
    (h : decode bs = .error (.truncated c k)) : decodeLines (fuel + 1) bs = [.diagTruncated] := by
  rw [decodeLines, h]

/-- A run that has ended without a truncation has no byte left. -/
theorem Holds.drop_eq_nil {bs : List Byte} {s : State} (h : Holds bs s) (hinv : Inv s)
    (hrun : s.status ≠ .run) (htrunc : s.status ≠ .trunc) : bs.drop s.cursor = [] := by
  cases hs : s.status with
  | run => exact absurd hs hrun
  | trunc => exact absurd hs htrunc
  | done => exact List.drop_eq_nil_of_le (by rw [hinv.done_at_end hs, h.len])

/-- The run from CURSOR on appends the records of the input from CURSOR on. -/
theorem Holds.runs_to_contract {bs : List Byte} (n : Nat) (s : State) (h : Holds bs s)
    (hinv : Inv s) (htrunc : s.status ≠ .trunc) (hn : bs.length ≤ s.cursor + n) :
    ∃ k t, k ≤ n ∧ runSteps k s = .next t ∧ t.status ≠ .run ∧
      t.out = s.out ++ decodeLines n (bs.drop s.cursor) := by
  induction n generalizing s with
  | zero =>
    refine ⟨0, s, le_refl 0, rfl, fun hrun => ?_, by rw [decodeLines, List.append_nil]⟩
    have hbelow := hinv.run_below hrun
    rw [h.len] at hbelow
    omega
  | succ n ih =>
    by_cases hrun : s.status = .run
    swap
    · refine ⟨0, s, Nat.zero_le _, rfl, hrun, ?_⟩
      rw [h.drop_eq_nil hinv hrun htrunc, decodeLines_nil, List.append_nil]
    obtain ⟨u, hu⟩ := hinv.step_next hrun
    have hinv' := step_keeps_inv s u hinv hu
    have hholds' := h.appends (step_appends s u hu)
    obtain ⟨-, ⟨i, rest, hdecode, -, rfl⟩ | ⟨c, k, hdecode, -, rfl⟩⟩ := step_outcome s u hu
    · have hpos := (instrLength_bounds i).1
      obtain ⟨k, t, hk, hruns, hend, hout⟩ := ih _ hholds' hinv' (statusAt_ne_trunc _ _)
        (by rw [advance_cursor]; omega)
      refine ⟨k + 1, t, Nat.succ_le_succ hk, (runSteps_succ k s t).2 ⟨_, hu, hruns⟩, hend, ?_⟩
      rw [hout, decodeLines_ok n _ _ i (h.decode_ok i rest hdecode).2]
      simp
    · refine ⟨1, _, Nat.succ_le_succ (Nat.zero_le n), (runSteps_succ 0 s _).2 ⟨_, hu, rfl⟩, ?_, ?_⟩
      · simp
      · rw [decodeLines_truncated n _ c k (h.decode_truncated c k hdecode)]
        rfl

/-- Settles O36: from reset the whole input lies past CURSOR, and OUT holds the header. -/
theorem runMeetsContract : Obligations.RunMeetsContract := by
  intro bs
  obtain ⟨k, t, hk, hruns, hend, hout⟩ := (resetBytes_holds bs).runs_to_contract bs.length _
    (resetBytes_inv bs) (statusAt_ne_trunc _ _) (Nat.le_add_left _ _)
  exact ⟨k, t, hk, hruns, hend, hout, congrArg renderText hout⟩

/-! ## The bytes before CURSOR -/

/-- The records of `t` account for the bytes before CURSOR: they are the encodings of `k`
well-formed instructions, and OUT is the header and their records. -/
def Accounts (bs : List Byte) (k : Nat) (t : State) : Prop :=
  ∃ is : List Instr, is.length = k ∧ (∀ i ∈ is, i.wf = true) ∧
    bs.take t.cursor = is.flatMap encode ∧ t.out = .header :: .blank :: is.map recordOf

theorem resetBytes_accounts (bs : List Byte) : Accounts bs 0 (resetBytes bs) :=
  ⟨[], rfl, by simp, rfl, rfl⟩

/-- A completed instruction takes its own bytes and appends its own record. -/
theorem Accounts.complete {bs : List Byte} {k : Nat} {s : State} (h : Accounts bs k s)
    (hholds : Holds bs s) (i : Instr) (rest : List Byte)
    (hdecode : decode (fetchBytes s) = .ok (i, rest)) :
    Accounts bs (k + 1) (advance (s.cursor + instrLength i) (emit (recordOf i) s)) := by
  obtain ⟨is, hlen, hwf, hbytes, hout⟩ := h
  have hwf' := (encode_of_decode _ _ _ hdecode).1
  refine ⟨is ++ [i], by simp [hlen], ?_, ?_, by simp [hout]⟩
  · simpa [or_imp, forall_and, hwf'] using hwf
  · have hfront : (bs.drop s.cursor).take (instrLength i) = encode i := by
      rw [(hholds.decode_ok i rest hdecode).1, ← (encodedLength i).1, List.take_left]
    rw [advance_cursor, List.take_add, hbytes, hfront, List.flatMap_append, List.flatMap_singleton]

/-- Settles O37, by induction on the steps: only the last one can truncate. -/
theorem recordsAccountForEveryByte : Obligations.RecordsAccountForEveryByte := by
  intro bs k t hruns htrunc
  show Accounts bs k t
  induction k generalizing t with
  | zero =>
    cases hruns
    exact resetBytes_accounts bs
  | succ k ih =>
    obtain ⟨s, hruns', hstep⟩ := (runSteps_last k _ t).1 hruns
    obtain ⟨hrun, ⟨i, rest, hdecode, -, rfl⟩ | ⟨c, k', -, -, rfl⟩⟩ := step_outcome s t hstep
    · have haccounts := ih s hruns' (by simp [hrun])
      have hholds := (resetBytes_holds bs).appends (runSteps_appends k _ s hruns')
      exact haccounts.complete hholds i rest hdecode
    · exact absurd rfl htrunc

end Sys2Proof.Machine
end

section
/-! PROOF. The text of records (30_encoding.md section 7): numerals, operands, lines. -/

namespace Sys2Proof.Machine

/-! ## Decimal digits -/

theorem digitChar_decimal : ∀ n < 10, (digitChar n).isDigit = true ∧
    (digitChar n).toNat - 48 = n ∧ (digitChar n = '0' → n = 0) := by decide

theorem decDigits_small (fuel n : Nat) (h : n < 10) : decDigits (fuel + 1) n = [digitChar n] :=
  if_pos h

theorem decDigits_large (fuel n : Nat) (h : ¬n < 10) :
    decDigits (fuel + 1) n = decDigits fuel (n / 10) ++ [digitChar (n % 10)] := if_neg h

theorem decDigits_isDigit (fuel n : Nat) : ∀ c ∈ decDigits fuel n, c.isDigit = true := by
  induction fuel generalizing n with
  | zero => simp [decDigits]
  | succ fuel ih =>
    by_cases hn : n < 10
    · simpa [decDigits_small fuel n hn] using (digitChar_decimal n hn).1
    · have hlast := (digitChar_decimal (n % 10) (Nat.mod_lt n (by decide))).1
      rw [decDigits_large fuel n hn]
      intro c hc
      obtain hc | hc := List.mem_append.1 hc
      · exact ih _ c hc
      · rwa [List.mem_singleton.1 hc]

theorem decDigits_ne_nil (fuel n : Nat) (h : n < fuel) : decDigits fuel n ≠ [] := by
  obtain ⟨fuel, rfl⟩ := Nat.exists_eq_succ_of_ne_zero (Nat.ne_zero_of_lt h)
  by_cases hn : n < 10
  · simp [decDigits_small fuel n hn]
  · simp [decDigits_large fuel n hn]

theorem numeralValue_concat (cs : List Char) (c : Char) :
    numeralValue (cs ++ [c]) = 10 * numeralValue cs + (c.toNat - 48) := by
  simp [numeralValue]

/-- With fuel for every digit, the numeral has the number's value. -/
theorem numeralValue_decDigits (fuel n : Nat) (h : n < fuel) :
    numeralValue (decDigits fuel n) = n := by
  induction fuel generalizing n with
  | zero => omega
  | succ fuel ih =>
    by_cases hn : n < 10
    · simpa [decDigits_small fuel n hn, numeralValue] using (digitChar_decimal n hn).2.1
    · obtain ⟨-, hlast, -⟩ := digitChar_decimal (n % 10) (Nat.mod_lt n (by decide))
      rw [decDigits_large fuel n hn, numeralValue_concat, ih _ (by omega), hlast]
      omega

/-- Only the numeral of zero begins with 0. -/
theorem decDigits_head (fuel n : Nat) (h : n < fuel)
    (hzero : (decDigits fuel n).head? = some '0') : n = 0 := by
  induction fuel generalizing n with
  | zero => omega
  | succ fuel ih =>
    by_cases hn : n < 10
    · rw [decDigits_small fuel n hn] at hzero
      exact (digitChar_decimal n hn).2.2 (Option.some.inj hzero)
    · have hdiv : n / 10 < fuel := by omega
      rw [decDigits_large fuel n hn, List.head?_append_of_ne_nil _ (decDigits_ne_nil _ _ hdiv)]
        at hzero
      have := ih _ hdiv hzero
      omega

theorem decNat_toList (n : Nat) : (decNat n).toList = decDigits (n + 1) n :=
  String.toList_ofList

theorem decNat_isDigit (n : Nat) : ∀ c ∈ (decNat n).toList, c.isDigit = true := by
  rw [decNat_toList]
  exact decDigits_isDigit _ n

/-! ## Signed numerals -/

theorem dec_natCast (n : Nat) : dec n = decNat n := by
  simp [dec]

theorem dec_neg_natCast (n : Nat) (h : n ≠ 0) : dec (-(n : Int)) = "-" ++ decNat n := by
  rw [dec, if_pos (by omega), Int.natAbs_neg, Int.natAbs_natCast]

/-- Settles O42: digits by induction on the fuel, which is enough for every digit. -/
theorem decimalNumerals : Obligations.DecimalNumerals := by
  refine ⟨fun n => ?_, fun n => ⟨dec_natCast n, dec_neg_natCast n⟩⟩
  refine ⟨?_, decNat_isDigit n, ?_, fun hzero => ?_⟩
  · rw [decNat_toList]
    exact decDigits_ne_nil _ n (Nat.lt_succ_self n)
  · rw [decNat_toList]
    exact numeralValue_decDigits _ n (Nat.lt_succ_self n)
  · rw [decNat_toList] at hzero
    rw [decDigits_head _ n (Nat.lt_succ_self n) hzero]
    rfl

theorem byte_toInt_low (v : Byte) (h : v.toNat < 0x80) : v.toInt = v.toNat := by
  rw [BitVec.toInt_eq_toNat_cond]
  split <;> omega

theorem byte_toInt_high (v : Byte) (h : 0x80 ≤ v.toNat) :
    v.toInt = -((0x100 - v.toNat : Nat) : Int) := by
  rw [BitVec.toInt_eq_toNat_cond]
  split <;> omega

theorem word_toInt_low (v : Word) (h : v.toNat < 0x8000) : v.toInt = v.toNat := by
  rw [BitVec.toInt_eq_toNat_cond]
  split <;> omega

theorem word_toInt_high (v : Word) (h : 0x8000 ≤ v.toNat) :
    v.toInt = -((0x10000 - v.toNat : Nat) : Int) := by
  rw [BitVec.toInt_eq_toNat_cond]
  split <;> omega

/-- The signed numeral of a byte, by its bits (R67, R91). -/
theorem dec_byte (v : Byte) :
    dec v.toInt = if v.toNat < 0x80 then decNat v.toNat else "-" ++ decNat (0x100 - v.toNat) := by
  split
  · rw [byte_toInt_low v ‹_›, dec_natCast]
  · rw [byte_toInt_high v (by omega), dec_neg_natCast _ (by omega)]

/-- The signed numeral of a word, by its bits (R67, R91). -/
theorem dec_word (v : Word) :
    dec v.toInt =
      if v.toNat < 0x8000 then decNat v.toNat else "-" ++ decNat (0x10000 - v.toNat) := by
  split
  · rw [word_toInt_low v ‹_›, dec_natCast]
  · rw [word_toInt_high v (by omega), dec_neg_natCast _ (by omega)]

/-! ## Operands -/

theorem renderEa_zero (base : String) : renderEa base 0 = "[" ++ base ++ "]" := rfl

theorem renderEa_pos (base : String) (n : Nat) (h : n ≠ 0) :
    renderEa base n = "[" ++ base ++ " + " ++ decNat n ++ "]" := by
  rw [renderEa, if_neg (by omega), if_pos (by omega), dec_natCast]

theorem renderEa_neg (base : String) (n : Nat) (h : n ≠ 0) :
    renderEa base (-(n : Int)) = "[" ++ base ++ " - " ++ decNat n ++ "]" := by
  rw [renderEa, if_neg (by omega), if_neg (by omega), neg_neg, dec_natCast]

/-- Settles O43, by the sign of the displacement. -/
theorem displacementText : Obligations.DisplacementText := by
  intro rm d
  refine ⟨?_, fun hne hlow => ?_, fun hhigh => ?_⟩
  · rintro rfl
    exact renderEa_zero (eaBase rm)
  · have hpos : d.toNat ≠ 0 := fun h => hne (BitVec.eq_of_toNat_eq h)
    rw [renderOperand, word_toInt_low d hlow, renderEa_pos _ _ hpos]
  · rw [renderOperand, word_toInt_high d hhigh, renderEa_neg _ _ (by omega)]

theorem renderOperand_memAbs (a : Word) :
    renderOperand (.memAbs a) = "[" ++ decNat a.toNat ++ "]" := by
  rw [renderOperand, dec_natCast]

theorem renderOperand_memDirect_low (a : Word) (h : a.toNat < 0x8000) :
    renderOperand (.memDirect a) = "[" ++ decNat a.toNat ++ "]" := by
  rw [renderOperand, dec_word, if_pos h]

theorem renderOperand_memDirect_high (a : Word) (h : 0x8000 ≤ a.toNat) :
    renderOperand (.memDirect a) = "[-" ++ decNat (0x10000 - a.toNat) ++ "]" := by
  rw [renderOperand, dec_word, if_neg (by omega)]
  simp [← String.toList_inj]

theorem minus_notMem_decNat (n : Nat) : '-' ∉ (decNat n).toList := fun hmem =>
  absurd (decNat_isDigit n '-' hmem) (by decide)

/-- Settles O44: the minus sign of the direct address tells the texts apart. -/
theorem addressTextDiffersOnlyAbove : Obligations.AddressTextDiffersOnlyAbove := by
  intro a
  refine ⟨renderOperand_memAbs a, renderOperand_memDirect_high a, fun heq => ?_, fun hlow => ?_⟩
  · by_contra hhigh
    rw [renderOperand_memDirect_high a (by omega), renderOperand_memAbs] at heq
    have hmem : '-' ∈ ("[" ++ decNat a.toNat ++ "]").toList := by simp [← heq]
    simp [minus_notMem_decNat] at hmem
  · rw [renderOperand_memDirect_low a hlow, renderOperand_memAbs]

/-! ## Lines -/

theorem renderRecord_mov (dst src : Operand) :
    renderRecord (.mov dst src) =
      "\tmov " ++ renderOperand dst ++ ", " ++ renderOperand src := by
  simp [renderRecord, indent, ← String.toList_inj]

theorem renderRecord_movSized8 (dst imm : Operand) :
    renderRecord (.movSized dst .w8 imm) =
      "\tmov " ++ renderOperand dst ++ ", byte " ++ renderOperand imm := by
  simp [renderRecord, indent, sizeKeyword, ← String.toList_inj]

theorem renderRecord_movSized16 (dst imm : Operand) :
    renderRecord (.movSized dst .w16 imm) =
      "\tmov " ++ renderOperand dst ++ ", word " ++ renderOperand imm := by
  simp [renderRecord, indent, sizeKeyword, ← String.toList_inj]

theorem renderRecord_diagUnrecognized (b : Byte) :
    renderRecord (.diagUnrecognized b) = "\t; unrecognized opcode 0x" ++ hexByte b := by
  simp [renderRecord, indent, ← String.toList_inj]

theorem hexByte_toList (b : Byte) :
    (hexByte b).toList = [digitChar (b.toNat / 16), digitChar (b.toNat % 16)] :=
  String.toList_ofList

theorem idxOf_digitChar : ∀ n < 16, "0123456789ABCDEF".toList.idxOf (digitChar n) = n := by decide

/-- The two digits of a byte are its halves. -/
theorem hexByte_digits (b : Byte) :
    (hexByte b).toList.map (fun c => "0123456789ABCDEF".toList.idxOf c) =
      [b.toNat / 16, b.toNat % 16] := by
  rw [hexByte_toList, List.map_cons, List.map_cons, List.map_nil,
    idxOf_digitChar _ (by omega), idxOf_digitChar _ (by omega)]

/-- Settles O14: a register form has no displacement byte, and its record is the sized one. -/
theorem sizedMovToRegister : Obligations.SizedMovToRegister := fun reg r i v =>
  ⟨exec_completesWith (.movRm8Imm8 (.register r) reg i),
    exec_completesWith (.movRm16Imm16 (.register r) reg v),
    renderRecord_movSized8 _ _, renderRecord_movSized16 _ _⟩

/-- Settles O45, from the lines of the records and the numerals of their operands. -/
theorem linesOfPlainForms : Obligations.LinesOfPlainForms := by
  intro r b v
  refine ⟨?_, ?_, ?_, ?_, renderRecord_diagUnrecognized b, hexByte_digits b⟩
  · rw [recordOf, renderRecord_mov, ← dec_byte]
    rfl
  · rw [recordOf, renderRecord_mov, ← dec_word]
    rfl
  · have hax : renderOperand (.reg 0 .w16) = "ax" := rfl
    rw [recordOf, renderRecord_mov, renderOperand_memAbs, hax]
    simp [← String.toList_inj]
  · have hax : renderOperand (.reg 0 .w16) = "ax" := rfl
    rw [recordOf, renderRecord_mov, renderOperand_memAbs, hax]
    simp [← String.toList_inj]

/-- Settles O46, from the lines of the records and the numerals of their immediates. -/
theorem linesOfModRmForms : Obligations.LinesOfModRmForms := by
  refine ⟨fun reg r rm b v => ⟨renderRecord_mov _ _, renderRecord_mov _ _, renderRecord_mov _ _,
    renderRecord_mov _ _, ?_, ?_, rfl, rfl⟩, by decide⟩
  · rw [recordOf, renderRecord_movSized8, ← dec_byte]
    rfl
  · rw [recordOf, renderRecord_movSized16, ← dec_word]
    rfl

/-! ## Tabs and line ends -/

/-- Text without a tab or a line end. -/
def Plain (t : String) : Prop := ∀ c ∈ t.toList, c ≠ '\n' ∧ c ≠ '\t'

theorem plain_append (t u : String) : Plain (t ++ u) ↔ Plain t ∧ Plain u := by
  simp only [Plain, String.toList_append, List.forall_mem_append]

/-- The fixed texts of the rendering. -/
theorem plain_fixed : Plain "[" ∧ Plain "]" ∧ Plain " + " ∧ Plain " - " ∧ Plain "-" ∧ Plain "mov " ∧
    Plain ", " ∧ Plain " " ∧ Plain "; unrecognized opcode 0x" ∧
    Plain "; truncated instruction" := by
  simp [Plain]

theorem tableEntry_plain (names : List String) (i : Index) (h : ∀ t ∈ names, Plain t) :
    Plain (tableEntry names i) := by
  rw [tableEntry, List.getD_eq_getElem?_getD]
  cases hi : names[i.toNat]? with
  | none => simp [Plain]
  | some t => exact h t (List.mem_of_getElem? hi)

theorem regName_plain (i : Index) (w : Width) : Plain (regName i w) := by
  cases w with
  | w8 => exact tableEntry_plain _ i (by simp [Plain])
  | w16 => exact tableEntry_plain _ i (by simp [Plain])

theorem eaBase_plain (i : Index) : Plain (eaBase i) := tableEntry_plain _ i (by simp [Plain])

theorem sizeKeyword_plain (w : Width) : Plain (sizeKeyword w) := by
  cases w <;> simp [Plain, sizeKeyword]

theorem digitChar_plain : ∀ n < 16, digitChar n ≠ '\n' ∧ digitChar n ≠ '\t' := by decide

theorem hexByte_plain (b : Byte) : Plain (hexByte b) := by
  have hhigh := digitChar_plain (b.toNat / 16) (by omega)
  have hlow := digitChar_plain (b.toNat % 16) (by omega)
  simp [Plain, hexByte_toList, hhigh, hlow]

theorem decNat_plain (n : Nat) : Plain (decNat n) := by
  intro c hc
  have hdigit := decNat_isDigit n c hc
  constructor <;> rintro rfl <;> exact absurd hdigit (by decide)

theorem dec_plain (n : Int) : Plain (dec n) := by
  rw [dec]
  split <;> simp [plain_append, plain_fixed, decNat_plain]

theorem renderOperand_plain (o : Operand) : Plain (renderOperand o) := by
  cases o with
  | reg i w => exact regName_plain i w
  | memBase rm d =>
    rw [renderOperand, renderEa]
    split_ifs <;> simp [plain_append, plain_fixed, eaBase_plain, dec_plain]
  | memDirect a => simp [renderOperand, plain_append, plain_fixed, dec_plain]
  | memAbs a => simp [renderOperand, plain_append, plain_fixed, dec_plain]
  | imm v w => exact dec_plain v

/-- Every record but the two of the header renders as one tab and plain text. -/
theorem renderRecord_shape (r : Record) :
    r = .header ∨ r = .blank ∨ ∃ body, renderRecord r = indent body ∧ Plain body := by
  cases r with
  | header => exact .inl rfl
  | blank => exact .inr (.inl rfl)
  | mov dst src =>
    exact .inr (.inr ⟨_, rfl, by simp [plain_append, plain_fixed, renderOperand_plain]⟩)
  | movSized dst w imm =>
    exact .inr (.inr ⟨_, rfl, by
      simp [plain_append, plain_fixed, renderOperand_plain, sizeKeyword_plain]⟩)
  | diagUnrecognized b =>
    exact .inr (.inr ⟨_, rfl, by simp [plain_append, plain_fixed, hexByte_plain]⟩)
  | diagTruncated => exact .inr (.inr ⟨_, rfl, by simp [plain_fixed]⟩)

theorem Plain.count_lf {t : String} (h : Plain t) : t.toList.count '\n' = 0 :=
  List.count_eq_zero.2 fun hmem => (h _ hmem).1 rfl

theorem Plain.count_tab {t : String} (h : Plain t) : t.toList.count '\t' = 0 :=
  List.count_eq_zero.2 fun hmem => (h _ hmem).2 rfl

theorem indent_toList (body : String) : (indent body).toList = '\t' :: body.toList := by
  simp [indent]

/-- No line has a line end of its own. -/
theorem renderRecord_count_lf (r : Record) : (renderRecord r).toList.count '\n' = 0 := by
  obtain rfl | rfl | ⟨body, hbody, hplain⟩ := renderRecord_shape r
  · decide
  · decide
  · rw [hbody, indent_toList, List.count_cons_of_ne (by decide), hplain.count_lf]

/-- A legal record's line begins with its one tab: neither record of the header is legal. -/
theorem renderRecord_tab (r : Record) (h : recordLegal r = true) :
    (renderRecord r).toList.head? = some '\t' ∧ (renderRecord r).toList.count '\t' = 1 := by
  obtain rfl | rfl | ⟨body, hbody, hplain⟩ := renderRecord_shape r
  · cases h
  · cases h
  · rw [hbody, indent_toList, List.count_cons_self, hplain.count_tab]
    exact ⟨rfl, rfl⟩

theorem renderText_count_lf (rs : List Record) : (renderText rs).toList.count '\n' = rs.length := by
  induction rs with
  | nil => rfl
  | cons r rs ih => simp [renderText, renderRecord_count_lf, ih]

/-- Settles O48: each line is plain but for its tab, so the only line ends are those of the text. -/
theorem oneLineForEachRecord : Obligations.OneLineForEachRecord :=
  ⟨renderText_count_lf, renderRecord_tab, by decide, rfl, fun _ _ => rfl⟩

/-- Settles O47, by running the contract on the four inputs. -/
theorem workedExamples : Obligations.WorkedExamples := by
  unfold Obligations.WorkedExamples
  decide

end Sys2Proof.Machine
end
